-- ==== Sys2Proof/Word.lean ====
section
/-! DEFINITION. Word.lean: the value widths of the report decode block (20_memory.md R55: accesses are of 8, 16 and
32 bits and nothing else). The widths of `LEN`, `CUR`, `CMD` and `RVAL` have
their names in Config.lean. All arithmetic on them is BitVec's, which
wraps (00_scope.md R9). -/

namespace Sys2Proof

/-- A byte of `BUF`, or an 8-bit register. -/
abbrev Byte := BitVec 8

/-- A 16-bit raw value of the output record. -/
abbrev Half := BitVec 16

/-- A 32-bit value: `RVAL`, a key word, a word of the cipher. -/
abbrev Word := BitVec 32

/-- A command word, `Config.cmdW` bits (R75). -/
abbrev CmdWord := BitVec 16

/-- Three 16-bit registers, index 0 first (10_state.md R28, R29, R30). -/
abbrev Vec3 := Vector Half 3

/-- The fifteen 32-bit words of the cipher block, `W[0]` first (30_encoding.md R89; `N_WORDS` = 15). -/
abbrev Block := Vector Word 15

end Sys2Proof
end

