-- ==== Sys2Proof/Config.lean ====
section
/-! DEFINITION. Config.lean: the implementation parameters of 00_scope.md R6, each a named constant. The literals are
unaudited (93_implementation_defined.md U1; log 10). The spec leaves no result of a command open, so there is no free
value here. -/

namespace Sys2Proof.Config

/-- `N_WORDS` (R6, R122). The type `Block` has this many words. -/
def nWords : Nat := 15

/-- `CRYPT_OFFSET`: the first encrypted byte (R6). -/
def cryptOffset : Nat := 1

/-- `CRYPT_LEN`: the encrypted sub-range is `[1, 61)` (R6). -/
def cryptLen : Nat := 60

/-- `BASE_ROUNDS` (R6, R122). -/
def baseRounds : Nat := 1

/-- `ROUNDS = BASE_ROUNDS + floor(52 / N_WORDS)` = 4 (R6, R122; 90_conflicts.md C8). -/
def rounds : Nat := baseRounds + 52 / nWords

/-- `DELTA` (R6, R122). -/
def delta : Word := 0x9E3779B9

/-- `SUM0 = (ROUNDS * DELTA) mod 2^32` (R7, R123). -/
def sum0 : Word := BitVec.ofNat 32 rounds * delta

/-- `KEY[0..3]` (10_state.md R27, 41_cipher_engine.md R133): a constant, not state. -/
def key : Fin 4 → Word
  | 0 => 0x875BCC51
  | 1 => 0xA7637A66
  | 2 => 0x50960967
  | 3 => 0xF8536C51

/-- `VERSION_TAG`, byte 0 (R6). -/
def tag0 : Byte := 2

/-- `VERSION_TAG`, byte 1 (R6). -/
def tag1 : Byte := 1

/-- `CTRL_BTN_OFFSET` = 3 + 3*2 + 4*2 = 17 (R6). -/
def ctrlBtnOffset : Nat := 3 + 3 * 2 + 4 * 2

/-- `CTRL_PADX_OFFSET` (R6). -/
def ctrlPadXOffset : Nat := 19

/-- `CTRL_PADY_OFFSET` (R6). -/
def ctrlPadYOffset : Nat := 20

/-- `N_BUTTONS` (R6). -/
def nButtons : Nat := 6

/-- `HMD_HEADER_SKIP` (R6). DEC_HMD reads nothing of the header (R158), so no operation needs it. -/
def hmdHeaderSkip : Nat := 25

/-- `ORI_GAP`: the bytes skipped between accelerometer and gyroscope (R6, R154). -/
def oriGap : Nat := 6

/-- `POS_SCALE` = 0.0001 = 1/10000 metres per unit, the exact rational (R6, R153). -/
def posScale : Rat := 1 / 10000

/-- `HMD_MOTION_OFFSET` (R6; 90_conflicts.md C5, D17): 31. DESIGN CHOICE of the spec, unsafe (log 8): the source can
also be read as 37. -/
def hmdMotionOffset : Nat := 31

/-- The two values the spec admits for `HMD_MOTION_OFFSET` (D17, U7). -/
def hmdMotionOffsets : List Nat := [31, 37]

/-- `HMD_VERSION_GATE`: off (R6, D18). R158's pseudocode is this value's; the spec gives no other (log 14). -/
def hmdVersionGate : Bool := false

/-- `HMD_WRITE_POS`: off (R6, D18). R158's pseudocode is this value's; the spec gives no other (log 14). -/
def hmdWritePos : Bool := false

/-- `CTRL_POSE_PATH`: omitted (R6, R157, D19; log 14). -/
def ctrlPosePath : Bool := false

/-- `BUF_CAP` (R6, D7): `BUF` is `BUF[0]` to `BUF[63]`. -/
def bufCap : Nat := 64

/-- `LEN_W`: the width of `LEN` in bits (R6, D8). The types of the registers and of a command word write their widths
out; the operations that cut a value to one of these widths take it from here, so that one that differs from its type
does not compile. -/
abbrev lenW : Nat := 8

/-- `CUR_W`: the width of `CUR` in bits (R6, D9). -/
abbrev curW : Nat := 8

/-- `CMD_W`: the width of a command word in bits (R6, D2; 30_encoding.md R75). -/
abbrev cmdW : Nat := 16

/-- `RVAL_W`: the width of `RVAL` in bits (R6, D11). -/
abbrev rvalW : Nat := 32

end Sys2Proof.Config
end

