-- ==== Sys2Proof/Syntax.lean ====
section
/-! DEFINITION. Syntax.lean: the eleven commands (30_encoding.md R76, one constructor per row of opcode_table.json). -/

namespace Sys2Proof

/-- A command of RDB command set 1. The operand `n` is the unsigned number 0..255 of R77, a count or an offset in
bytes; `Instr.WellFormed` holds it to that range. -/
inductive Instr
  /-- SETCUR `n` (R101). -/
  | setcur (n : Nat)
  /-- SKIP `n` (R102). -/
  | skip (n : Nat)
  /-- RD8 (R103). -/
  | rd8
  /-- RD16 (R104). -/
  | rd16
  /-- RD32 (R105). -/
  | rd32
  /-- DECRYPT (R128). -/
  | decrypt
  /-- DEC_POS (R152). -/
  | decPos
  /-- DEC_ORI (R154). -/
  | decOri
  /-- DEC_CTRL (R155). -/
  | decCtrl
  /-- DEC_HMD (R158). -/
  | decHmd
  /-- DEC_BASE (R160). -/
  | decBase
deriving DecidableEq, Repr

end Sys2Proof
end

