-- ==== Sys2Proof/WellFormed.lean ====
section
/-! DEFINITION. WellFormed.lean: which terms of `Instr` are commands. The one check is the operand's range (30_encoding.md
R77: `imm8` is the unsigned number `w[7:0]`, 0 to 255). -/

namespace Sys2Proof

/-- `imm8` fits its field (R75, R77). -/
abbrev imm8Ok (n : Nat) : Prop := n < 256

/-- The operand of a command that has one is 0..255. -/
def Instr.wellFormed : Instr → Bool
  | .setcur n => decide (imm8Ok n)
  | .skip n => decide (imm8Ok n)
  | .rd8 => true
  | .rd16 => true
  | .rd32 => true
  | .decrypt => true
  | .decPos => true
  | .decOri => true
  | .decCtrl => true
  | .decHmd => true
  | .decBase => true

/-- `i` is a command of R76. -/
abbrev Instr.WellFormed (i : Instr) : Prop := i.wellFormed = true

end Sys2Proof
end

