-- ==== Sys2Proof/Decode.lean ====
section
/-! DEFINITION. Decode.lean: the decoder of 30_encoding.md R91, total on the 65 536 words, rejecting by name; and the
encoder, written from the opcode map R76 (opcode_table.json). -/

namespace Sys2Proof

/-- Why a word encodes no command (R78). Either way the block raises IllegalCommand (R183); the name is the model's. -/
inductive DecodeError
  /-- `op` is not one of the eleven of R76. -/
  | reservedOpcode
  /-- `op` is one of the nine that take no operand, and `imm8` is not 0. -/
  | operandNotZero
deriving DecidableEq, Repr

/-- `op = w[15:8]` (R75). -/
def cmdOp (w : CmdWord) : Byte := w.extractLsb' 8 8

/-- `imm8 = w[7:0]` (R75). -/
def cmdImm8 (w : CmdWord) : Byte := w.extractLsb' 0 8

/-- The command of a no-operand `op` (R76, R91). -/
def noOperandCommand (op : Byte) : Option Instr :=
  if op = 0x08 then some .rd8
  else if op = 0x09 then some .rd16
  else if op = 0x0A then some .rd32
  else if op = 0x10 then some .decrypt
  else if op = 0x20 then some .decPos
  else if op = 0x21 then some .decOri
  else if op = 0x22 then some .decCtrl
  else if op = 0x23 then some .decHmd
  else if op = 0x24 then some .decBase
  else none

/-- `decode(w)` of R91. -/
def decode (w : CmdWord) : Except DecodeError Instr :=
  if cmdOp w = 0x01 then .ok (.setcur (cmdImm8 w).toNat)
  else if cmdOp w = 0x02 then .ok (.skip (cmdImm8 w).toNat)
  else
    match noOperandCommand (cmdOp w) with
    | none => .error .reservedOpcode
    | some i => if cmdImm8 w = 0 then .ok i else .error .operandNotZero

/-- The `op` field of a command (R76). -/
def opcodeOf : Instr → Byte
  | .setcur _ => 0x01
  | .skip _ => 0x02
  | .rd8 => 0x08
  | .rd16 => 0x09
  | .rd32 => 0x0A
  | .decrypt => 0x10
  | .decPos => 0x20
  | .decOri => 0x21
  | .decCtrl => 0x22
  | .decHmd => 0x23
  | .decBase => 0x24

/-- The `imm8` field of a command: the operand, or 0 where there is none (R75, R77). -/
def imm8Of : Instr → Byte
  | .setcur n => BitVec.ofNat 8 n
  | .skip n => BitVec.ofNat 8 n
  | .rd8 => 0
  | .rd16 => 0
  | .rd32 => 0
  | .decrypt => 0
  | .decPos => 0
  | .decOri => 0
  | .decCtrl => 0
  | .decHmd => 0
  | .decBase => 0

/-- The word of a command: `op` in bits 15..8, `imm8` in bits 7..0 (R75). -/
def encode (i : Instr) : CmdWord := opcodeOf i ++ imm8Of i

/-- The 16-bit word whose low `nbits` bits are those of `w` and whose other bits are 0 (log 12). -/
def tableWord (nbits w : Nat) : CmdWord := BitVec.ofNat Config.cmdW (w % 2 ^ nbits)

/-- The command the decoder reads from a word numbered as opcode_table.json numbers it. Every command is exactly one
16-bit word (R79), so a wider row has no instruction. -/
def decodeTableWord (nbits w : Nat) : Option Instr :=
  if nbits ≤ Config.cmdW then
    match decode (tableWord nbits w) with
    | .ok i => some i
    | .error _ => none
  else none

end Sys2Proof
end

