-- ==== Sys2Proof/Machine/Flags.lean ====
section
/-! DEFINITION. Machine/Flags.lean: the block has no condition flags (10_state.md R34). What a command leaves behind
about itself is its result code in `STATUS`; this file is the whole of it (60_exceptions.md R180). -/

namespace Sys2Proof.Machine

/-- The four results a command can end with (R180). -/
inductive ResultCode
  /-- The command did what its rule says. -/
  | ok
  /-- A gated decoder found a version tag other than (2, 1) (R182). -/
  | unknownVersion
  /-- The command would have touched a byte at or beyond `LEN`, or moved `CUR` beyond `LEN` (R181). -/
  | truncatedReport
  /-- The command word encodes no command (R183). -/
  | illegalCommand
deriving DecidableEq, Repr

/-- The value of `STATUS` for a result (R180). -/
def statusCode : ResultCode → Byte
  | .ok => 0
  | .unknownVersion => 1
  | .truncatedReport => 2
  | .illegalCommand => 3

end Sys2Proof.Machine
end

