-- ==== Sys2Proof/Machine/State.lean ====
section
/-! DEFINITION. Machine/State.lean: the state of the block as plain data (10_state.md R20), the host's actions, the two
reasons a step of the model can stop, and the state after reset (R39, R200). -/

namespace Sys2Proof.Machine

/-- The report buffer `BUF` as a sparse list of (offset, byte) pairs in one canonical form (`Memory.wf` in Ops.lean):
offsets strictly rising and below `BUF_CAP`, no byte equal to what an unlisted offset reads as. -/
abbrev Memory := List Host.Cell

/-- What reset leaves unspecified (R39, R200): arbitrary inputs of a reset (log 7). -/
structure Unspecified where
  buf : Vector Byte 64
  pos : Vec3
  acc : Vec3
  gyro : Vec3
  ctrl : Vector Byte 8
deriving DecidableEq, Repr

/-- One action of the host (20_memory.md R58, 10_state.md R36 to R38, 70_reset_and_hazards.md R201). -/
inductive HostAction
  /-- Write value `v` to host register number `reg` (R37). A write of register 0, `CMD`, runs a command (R26). -/
  | write (reg : Byte) (v : Word)
  /-- Read host register number `reg` (R38). -/
  | read (reg : Byte)
  /-- Assert reset (R201); `u` is what `BUF` and the output record hold afterwards, which the spec leaves open. -/
  | reset (u : Unspecified)
deriving DecidableEq, Repr

/-- The complete state of the block (R20), and the two fields of the model's own at its end. -/
structure State where
  /-- `BUF` (R21). -/
  buf : Memory
  /-- `LEN`, the number of valid bytes (R22), `Config.lenW` bits. -/
  len : Byte
  /-- `CUR`, the cursor (R23), `Config.curW` bits. -/
  cur : Byte
  /-- `RVAL`, the last value read (R24), `Config.rvalW` bits. -/
  rval : Word
  /-- `STATUS`, the result code of the most recent command (R25). -/
  status : Byte
  /-- `POS[0..2]` (R28). -/
  pos : Vec3
  /-- `ACC[0..2]` (R29). -/
  acc : Vec3
  /-- `GYRO[0..2]` (R30). -/
  gyro : Vec3
  /-- `CTRL[0..7]`: buttons 0 to 5, pad X, pad Y (R31). -/
  ctrl : Vector Byte 8
  /-- The model's own: the host actions still to come, the next one first (R40, R58; log 3). -/
  script : List HostAction
  /-- The model's own: what the most recent host read returned (R38; log 4). -/
  rdata : Word
deriving DecidableEq, Repr

/-- Why a step stops. The block itself has no traps (60_exceptions.md): a command that raises is a next state. -/
inductive Fault
  /-- A command would touch an offset at or beyond `BUF_CAP`, which does not exist (20_memory.md R50). Raised by
  `withBound` in Ops.lean, only in a state with `LEN > 64`, which nothing produces (R22, R37, U12). Safe (log 6). -/
  | noSuchByte
deriving DecidableEq, Repr

/-- Why the model gives an instruction no meaning. -/
inductive Refusal
  /-- An arm of `exec` without a meaning yet. Raised by no arm: every command has its meaning. Safe. -/
  | notModelled (mnemonic : String)
deriving DecidableEq, Repr

/-- The block right after reset (R39, R200). `LEN`, `CUR`, `RVAL`, `STATUS` are the spec's; the zeros in `BUF` and in the
output record are a DESIGN CHOICE, unsafe (log 1, log 2): the spec leaves them unspecified. Nothing is placed in
`script` (log 3). -/
def State.reset : State where
  buf := []
  len := 0
  cur := 0
  rval := 0
  status := 0
  pos := Vector.replicate 3 0
  acc := Vector.replicate 3 0
  gyro := Vector.replicate 3 0
  ctrl := Vector.replicate 8 0
  script := []
  rdata := 0

end Sys2Proof.Machine
end

