-- ==== Sys2Proof/Machine/Ops.lean ====
section
/-! DEFINITION. Machine/Ops.lean: the named operations over the report buffer and the registers: reading and writing
bytes and little-endian values (20_memory.md R51 to R53), the bound every command tests first (R56), the version gate
(42_report_decoders.md R151), and ending a command (00_scope.md R10, 60_exceptions.md R180, R185). -/

namespace Sys2Proof.Machine

/-! ### The buffer -/

/-- What an unlisted byte of `BUF` reads as. The spec leaves the contents after reset unspecified (R39, U4). DESIGN
CHOICE, unsafe (log 1). -/
def unlistedByte : Byte := 0

/-- The byte at offset `a`. -/
def Memory.read : Memory → Nat → Byte
  | [], _ => unlistedByte
  | (b, v) :: m, a => if a = b then v else Memory.read m a

/-- The buffer with the byte `v` at offset `a`, in canonical form again: writing what an unlisted offset reads as
removes the entry. -/
def Memory.write : Memory → Nat → Byte → Memory
  | [], a, v => if v = unlistedByte then [] else [(a, v)]
  | (b, w) :: m, a, v =>
    if a < b then (if v = unlistedByte then (b, w) :: m else (a, v) :: (b, w) :: m)
    else if a = b then (if v = unlistedByte then m else (a, v) :: m)
    else (b, w) :: Memory.write m a v

/-- The canonical form: offsets strictly rising and inside the address space `[0, BUF_CAP)` (R50), no entry equal to
what an unlisted offset reads as. -/
abbrev Memory.wf (m : Memory) : Prop :=
  m.Pairwise (fun c d => c.1 < d.1) ∧ ∀ c ∈ m, c.1 < Config.bufCap ∧ c.2 ≠ unlistedByte

/-- The bytes `bs` stored from offset `a` upward. -/
def Memory.writeList : Memory → Nat → List Byte → Memory
  | m, _, [] => m
  | m, a, b :: bs => Memory.writeList (Memory.write m a b) (a + 1) bs

/-- `MemRead(a, 1)` (R52). -/
def memRead1 (m : Memory) (a : Nat) : Byte := Memory.read m a

/-- `MemRead(a, 2)`, little-endian (R51, R52). -/
def memRead2 (m : Memory) (a : Nat) : Half := Memory.read m (a + 1) ++ Memory.read m a

/-- `MemRead(a, 4)`, little-endian (R51, R52). -/
def memRead4 (m : Memory) (a : Nat) : Word :=
  Memory.read m (a + 3) ++ Memory.read m (a + 2) ++ Memory.read m (a + 1) ++ Memory.read m a

/-- `v[8i+7 : 8i]`, byte `i` of a 32-bit value (R10). -/
def byteOfWord (v : Word) (i : Nat) : Byte := v.extractLsb' (8 * i) 8

/-- `MemWrite(a, 4, v)` (R53). -/
def memWrite4 (m : Memory) (a : Nat) (v : Word) : Memory :=
  Memory.writeList m a [byteOfWord v 0, byteOfWord v 1, byteOfWord v 2, byteOfWord v 3]

/-! ### Ending a command -/

/-- `raise r`: `STATUS` takes the result's code and nothing else changes (R10, R185). This is the whole of taking an
exception in this block: nothing is saved and control goes nowhere; there is no return from it (R186). -/
def raise (r : ResultCode) (s : State) : State := { s with status := statusCode r }

/-- `done`: `STATUS <- 0` (R10). -/
def done (s : State) : State := { s with status := statusCode .ok }

/-- The bound of R56 for a command whose highest touched offset is `n - 1`: tested once, before any access and any
write. An offset at or beyond `BUF_CAP` does not exist (R50), so a bound that `LEN` lets through beyond it stops the
model (log 6). -/
def withBound (n : Nat) (s : State) (body : Host.Outcome State Fault Refusal) : Host.Outcome State Fault Refusal :=
  if s.len.toNat < n then .next (raise .truncatedReport s)
  else if Config.bufCap < n then .fault .noSuchByte
  else body

/-- `gate_ok` (R151): the version tag at offsets 0 and 1 is (2, 1). -/
def gateOk (m : Memory) : Bool := memRead1 m 0 == Config.tag0 && memRead1 m 1 == Config.tag1

/-- The gate of DEC_CTRL and DEC_BASE (R151): a command whose gate fails raises UnknownVersion. -/
def withGate (s : State) (body : Host.Outcome State Fault Refusal) : Host.Outcome State Fault Refusal :=
  if gateOk s.buf then body else .next (raise .unknownVersion s)

/-! ### Writing the registers -/

/-- `CUR <- n`. Every caller has `n <= LEN`, so `n` fits (R106). -/
def setCursor (n : Nat) (s : State) : State := { s with cur := BitVec.ofNat Config.curW n }

/-- `RVAL <- v`. -/
def setReadValue (v : BitVec Config.rvalW) (s : State) : State := { s with rval := v }

/-- `POS[0..2] <- p`. -/
def setPosition (p : Vec3) (s : State) : State := { s with pos := p }

/-- `ACC[0..2] <- a` and `GYRO[0..2] <- g`, always together (R29, R30). -/
def setMotion (a g : Vec3) (s : State) : State := { s with acc := a, gyro := g }

/-- `CTRL[0..7] <- c`. -/
def setControls (c : Vector Byte 8) (s : State) : State := { s with ctrl := c }

/-- `BUF` becomes `m`. -/
def setBuffer (m : Memory) (s : State) : State := { s with buf := m }

end Sys2Proof.Machine
end

