-- ==== Sys2Proof/Machine/Operands.lean ====
section
/-! DEFINITION. Machine/Operands.lean: the operand forms. A command names no register (30_encoding.md R77); what it works
on is the cursor, a fixed offset, or a field of the report at one of them (20_memory.md R65). Beside them, the widenings
and signed readings of 00_scope.md R9. -/

namespace Sys2Proof.Machine

/-- The cursor as an offset (20_memory.md R65, "cursor"). -/
def cursor (s : State) : Nat := s.cur.toNat

/-- `zext_32` of a byte (R9, R24). -/
def zext32 (b : Byte) : Word := b.setWidth 32

/-- `sext_32` of a 16-bit value (R9, R24). -/
def sext32 (h : Half) : Word := h.signExtend 32

/-- `sint16(v)`: the signed reading of a 16-bit pattern (R9). -/
def sint16 (v : Half) : Int := if v.toNat < 0x8000 then (v.toNat : Int) else (v.toNat : Int) - 65536

/-- The position in metres that a raw value means: the exact rational `sint16(v) / 10000` (42_report_decoders.md R153).
The block does not compute it; no float is modelled (log 15). -/
def positionMetres (v : Half) : Rat := (sint16 v : Rat) * Config.posScale

/-- Three consecutive 16-bit fields at offset `a` (30_encoding.md R83, R84). -/
def fieldVec3 (m : Memory) (a : Nat) : Vec3 := #v[memRead2 m a, memRead2 m (a + 2), memRead2 m (a + 4)]

/-- The offset of the gyroscope in a motion payload: after the accelerometer and the gap (R84). -/
def gyroOffset : Nat := 6 + Config.oriGap

/-- The bytes of a motion payload (R84). -/
def motionSize : Nat := gyroOffset + 6

/-- Bit `i` of the buttons bitmask as the number 0 or 1 (30_encoding.md R86, R156). -/
def buttonBit (m : Byte) (i : Nat) : Byte := (m >>> i) &&& 1

/-- The eight controller values of a controller report (R85, R86, R155): buttons 0 to 5, pad X, pad Y. -/
def fieldControls (m : Memory) : Vector Byte 8 :=
  let mask := memRead1 m Config.ctrlBtnOffset
  #v[buttonBit mask 0, buttonBit mask 1, buttonBit mask 2, buttonBit mask 3, buttonBit mask 4, buttonBit mask 5,
    memRead1 m Config.ctrlPadXOffset, memRead1 m Config.ctrlPadYOffset]

/-- The offset of word `i` of the encrypted sub-range: `1 + 4i` (30_encoding.md R89). -/
def cryptWordOffset (i : Nat) : Nat := Config.cryptOffset + 4 * i

end Sys2Proof.Machine
end

