-- ==== Sys2Proof/Machine/CipherEngine.lean ====
section
/-! DEFINITION. Machine/CipherEngine.lean: the cipher engine and the meaning of DECRYPT (41_cipher_engine.md), and the
reference function ENCRYPT15 (R136), which is not a command. The operand placement of the mix function is the spec's,
from general knowledge (R124, R125; 90_conflicts.md C1): UNVERIFIED, unsafe (log 9). -/

namespace Sys2Proof.Machine

/-- `E = (SUM >> 2) & 3` (R123). -/
def roundE (sum : Word) : BitVec 2 := (sum >>> 2).setWidth 2

/-- `(p ^ e) & 3`: the two low bits of `p` XORed with `e` (R123, R130). -/
def keyIndex (e : BitVec 2) (p : Nat) : Fin 4 := (BitVec.ofNat 2 p ^^^ e).toFin

/-- `MX(z, y, sum, e, p)` (R124). -/
def mix (z y sum : Word) (e : BitVec 2) (p : Nat) : Word :=
  let a := (z >>> 5) ^^^ (y <<< 2)
  let b := (y >>> 3) ^^^ (z <<< 4)
  let c := sum ^^^ y
  let d := Config.key (keyIndex e p) ^^^ z
  (a + b) ^^^ (c + d)

/-- The mix value for word `p` of `w`: the word before it and the word after it, cyclically, as they stand in `w`
(R125). Indices of type `Fin 15` wrap modulo 15. -/
def mixAt (sum : Word) (w : Block) (p : Fin 15) : Word := mix w[p - 1] w[p + 1] sum (roundE sum) p

/-- One update of a decrypting round: `W[p] <- W[p] - MX(...)` (R126). -/
def decryptStep (sum : Word) (w : Block) (p : Fin 15) : Block := w.set p (w[p] - mixAt sum w p)

/-- One decrypting round: `p` = 14 down to 1, then 0 (R126). -/
def decryptRound (sum : Word) (w : Block) : Block := (List.finRange 15).reverse.foldl (decryptStep sum) w

/-- `n` rounds from the running sum `sum`, which loses `DELTA` after each (R123, R132). -/
def decryptRounds : Nat → Word → Block → Block
  | 0, _, w => w
  | n + 1, sum, w => decryptRounds n (sum - Config.delta) (decryptRound sum w)

/-- DECRYPT's map on the fifteen words (R128). -/
def decryptBlock (w : Block) : Block := decryptRounds Config.rounds Config.sum0 w

/-- The word load (R121): `W[i] <- MemRead(1 + 4i, 4)`. -/
def loadBlock (m : Memory) : Block := Vector.ofFn fun i => memRead4 m (cryptWordOffset i)

/-- `MemWrite` of word `i` of `w` (R127). -/
def storeWord (w : Block) (m : Memory) (i : Fin 15) : Memory := memWrite4 m (cryptWordOffset i) w[i]

/-- The write-back (R127): `MemWrite(1 + 4i, 4, W[i])` for `i` = 0 to 14. -/
def storeBlock (w : Block) (m : Memory) : Memory := (List.finRange 15).foldl (storeWord w) m

/-- DECRYPT (R128). It uses neither `CUR` nor `RVAL` (R131), and has no failure but the length's (R129). -/
def execDecrypt (s : State) : Host.Outcome State Fault Refusal :=
  withBound (Config.cryptOffset + Config.cryptLen) s
    (.next (done (setBuffer (storeBlock (decryptBlock (loadBlock s.buf)) s.buf) s)))

/-! ### The formulation with a running variable (R134) -/

/-- One update with the running `Y`: the word just written is the next update's `y` operand (R134). -/
def decryptStepRunning (sum : Word) (wy : Block × Word) (p : Fin 15) : Block × Word :=
  let v := wy.1[p] - mix wy.1[p - 1] wy.2 sum (roundE sum) p
  (wy.1.set p v, v)

/-- `n` rounds with the running `Y` (R134). -/
def decryptRoundsRunning : Nat → Word → Block × Word → Block × Word
  | 0, _, wy => wy
  | n + 1, sum, wy =>
    decryptRoundsRunning n (sum - Config.delta) ((List.finRange 15).reverse.foldl (decryptStepRunning sum) wy)

/-- DECRYPT's map with the running `Y`, set to `W[0]` once before the first round (R134). -/
def decryptBlockRunning (w : Block) : Block := (decryptRoundsRunning Config.rounds Config.sum0 (w, w[0])).1

/-! ### The forward transform (R136), a reference function -/

/-- One update of the forward transform: `W[p] <- W[p] + MX(...)` (R136). -/
def encryptStep (sum : Word) (w : Block) (p : Fin 15) : Block := w.set p (w[p] + mixAt sum w p)

/-- One forward round: `p` = 0 up to 14 (R136). -/
def encryptRound (sum : Word) (w : Block) : Block := (List.finRange 15).foldl (encryptStep sum) w

/-- `n` forward rounds; the running sum gains `DELTA` before each (R136). -/
def encryptRounds : Nat → Word → Block → Block
  | 0, _, w => w
  | n + 1, sum, w => encryptRounds n (sum + Config.delta) (encryptRound (sum + Config.delta) w)

/-- `ENCRYPT15(W)` (R136). Not a command. -/
def encrypt15 (w : Block) : Block := encryptRounds Config.rounds 0 w

end Sys2Proof.Machine
end

