-- ==== Sys2Proof/Machine/FieldReader.lean ====
section
/-! DEFINITION. Machine/FieldReader.lean: the meanings of SETCUR, SKIP, RD8, RD16, RD32 (40_field_reader.md). -/

namespace Sys2Proof.Machine

/-- Move the cursor to `n` if that is not beyond `LEN` (R101, R102, R106). The bytes passed over are not read, so only
`LEN` bounds the move. -/
def moveCursor (n : Nat) (s : State) : Host.Outcome State Fault Refusal :=
  if s.len.toNat < n then .next (raise .truncatedReport s) else .next (done (setCursor n s))

/-- A read of `n` bytes at the cursor whose value is `v` (R100, R103 to R105). -/
def fieldRead (n : Nat) (v : Word) (s : State) : Host.Outcome State Fault Refusal :=
  withBound (cursor s + n) s (.next (done (setCursor (cursor s + n) (setReadValue v s))))

/-- SETCUR `n` (R101). -/
def execSetcur (n : Nat) (s : State) : Host.Outcome State Fault Refusal := moveCursor n s

/-- SKIP `n` (R102): the sum is taken in unbounded integers (R106). -/
def execSkip (n : Nat) (s : State) : Host.Outcome State Fault Refusal := moveCursor (cursor s + n) s

/-- RD8 (R103): zero-extended. -/
def execRd8 (s : State) : Host.Outcome State Fault Refusal :=
  fieldRead 1 (zext32 (memRead1 s.buf (cursor s))) s

/-- RD16 (R104): sign-extended. -/
def execRd16 (s : State) : Host.Outcome State Fault Refusal :=
  fieldRead 2 (sext32 (memRead2 s.buf (cursor s))) s

/-- RD32 (R105). -/
def execRd32 (s : State) : Host.Outcome State Fault Refusal :=
  fieldRead 4 (memRead4 s.buf (cursor s)) s

end Sys2Proof.Machine
end

