-- ==== Sys2Proof/Machine/ReportDecoders.lean ====
section
/-! DEFINITION. Machine/ReportDecoders.lean: the meanings of DEC_POS, DEC_ORI, DEC_CTRL, DEC_HMD, DEC_BASE
(42_report_decoders.md). Each tests its length bound, then its gate if it has one, then extracts (R150, R161); none
starts the cipher engine, moves `CUR` or writes `RVAL` (R150). -/

namespace Sys2Proof.Machine

/-- The motion payload at offset `a` into `ACC` and `GYRO`; the six bytes between are not read (R84, R154). -/
def decodeMotion (a : Nat) (s : State) : Host.Outcome State Fault Refusal :=
  withBound (a + motionSize) s
    (.next (done (setMotion (fieldVec3 s.buf a) (fieldVec3 s.buf (a + gyroOffset)) s)))

/-- DEC_HMD for a given `HMD_MOTION_OFFSET` (R158): no gate, `POS` not written (R159). -/
def decodeHmd (motionOffset : Nat) (s : State) : Host.Outcome State Fault Refusal := decodeMotion motionOffset s

/-- DEC_POS (R152). -/
def execDecPos (s : State) : Host.Outcome State Fault Refusal :=
  withBound (cursor s + 6) s (.next (done (setPosition (fieldVec3 s.buf (cursor s)) s)))

/-- DEC_ORI (R154). -/
def execDecOri (s : State) : Host.Outcome State Fault Refusal := decodeMotion (cursor s) s

/-- DEC_CTRL (R155, R156): no position and no orientation (R157). -/
def execDecCtrl (s : State) : Host.Outcome State Fault Refusal :=
  withBound (Config.ctrlPadYOffset + 1) s (withGate s (.next (done (setControls (fieldControls s.buf) s))))

/-- DEC_HMD (R158). -/
def execDecHmd (s : State) : Host.Outcome State Fault Refusal := decodeHmd Config.hmdMotionOffset s

/-- DEC_BASE (R160): a bare test of the version tag. -/
def execDecBase (s : State) : Host.Outcome State Fault Refusal := withBound 2 s (withGate s (.next (done s)))

end Sys2Proof.Machine
end

