-- ==== Sys2Proof/Machine/Dispatch.lean ====
section
/-! DEFINITION. Machine/Dispatch.lean: one arm per command (30_encoding.md R76). -/

namespace Sys2Proof.Machine

def exec (i : Instr) (s : State) : Host.Outcome State Fault Refusal :=
  match i with
  | .setcur n => Sys2Proof.Machine.execSetcur n s
  | .skip n => Sys2Proof.Machine.execSkip n s
  | .rd8 => Sys2Proof.Machine.execRd8 s
  | .rd16 => Sys2Proof.Machine.execRd16 s
  | .rd32 => Sys2Proof.Machine.execRd32 s
  | .decrypt => Sys2Proof.Machine.execDecrypt s
  | .decPos => Sys2Proof.Machine.execDecPos s
  | .decOri => Sys2Proof.Machine.execDecOri s
  | .decCtrl => Sys2Proof.Machine.execDecCtrl s
  | .decHmd => Sys2Proof.Machine.execDecHmd s
  | .decBase => Sys2Proof.Machine.execDecBase s

end Sys2Proof.Machine
end

