-- ==== Sys2Proof/Machine/HostPort.lean ====
section
/-! DEFINITION. Machine/HostPort.lean: the host's view of the block: the register map (10_state.md R36), host writes and
reads (R37, R38) and reset (70_reset_and_hazards.md R200, R201). Host data is 32 bits wide, the width of the widest
register (DESIGN CHOICE, log 4). -/

namespace Sys2Proof.Machine

/-- A host register (R36). -/
inductive HostReg
  | cmd
  | status
  | len
  | cur
  | rval
  | pos (i : Fin 3)
  | acc (i : Fin 3)
  | gyro (i : Fin 3)
  | ctrl (i : Fin 8)
  | buf (i : Fin 64)
  | reserved
deriving DecidableEq, Repr

/-- The index of register number `k` in a bank of `n` registers that starts at number `base`. -/
def bankIndex (base n k : Nat) : Option (Fin n) :=
  if h : base ≤ k ∧ k - base < n then some ⟨k - base, h.2⟩ else none

/-- The register of a number that belongs to none of the single registers (R36). -/
def bankReg (k : Nat) : HostReg :=
  match bankIndex 0x10 3 k, bankIndex 0x14 3 k, bankIndex 0x18 3 k, bankIndex 0x20 8 k, bankIndex 0x40 64 k with
  | some i, _, _, _, _ => .pos i
  | none, some i, _, _, _ => .acc i
  | none, none, some i, _, _ => .gyro i
  | none, none, none, some i, _ => .ctrl i
  | none, none, none, none, some i => .buf i
  | none, none, none, none, none => .reserved

/-- The host register of a register number (R36). -/
def hostReg (num : Byte) : HostReg :=
  if num = 0x00 then .cmd
  else if num = 0x01 then .status
  else if num = 0x02 then .len
  else if num = 0x03 then .cur
  else if num = 0x04 then .rval
  else bankReg num.toNat

/-- A host write of `LEN`: `min(v[7:0], BUF_CAP)`, and `CUR <- 0` (R22, R37). -/
def writeLen (v : Word) (s : State) : State :=
  { s with len := BitVec.ofNat Config.lenW (min (v.setWidth Config.lenW).toNat Config.bufCap), cur := 0 }

/-- A host write of value `v` (R37) to a register other than `CMD`, which stores nothing: the command that a write of
`CMD` runs is Command.lean's. -/
def hostWrite (r : HostReg) (v : Word) (s : State) : State :=
  match r with
  | .cmd => s
  | .status => s
  | .len => writeLen v s
  | .cur => s
  | .rval => s
  | .pos i => { s with pos := s.pos.set i (v.setWidth 16) }
  | .acc i => { s with acc := s.acc.set i (v.setWidth 16) }
  | .gyro i => { s with gyro := s.gyro.set i (v.setWidth 16) }
  | .ctrl i => { s with ctrl := s.ctrl.set i (v.setWidth 8) }
  | .buf i => { s with buf := Memory.write s.buf i (v.setWidth 8) }
  | .reserved => s

/-- What a host read returns: the register's value, zero-extended (R38). -/
def hostRead (r : HostReg) (s : State) : Word :=
  match r with
  | .cmd => 0
  | .status => s.status.setWidth 32
  | .len => s.len.setWidth 32
  | .cur => s.cur.setWidth 32
  | .rval => s.rval
  | .pos i => s.pos[i].setWidth 32
  | .acc i => s.acc[i].setWidth 32
  | .gyro i => s.gyro[i].setWidth 32
  | .ctrl i => s.ctrl[i].setWidth 32
  | .buf i => (memRead1 s.buf i).setWidth 32
  | .reserved => 0

/-- A host read (R38): nothing of the block changes; the answer is on the host's side (log 4). -/
def deliver (v : Word) (s : State) : State := { s with rdata := v }

/-- Reset (R39, R200): `LEN`, `CUR`, `STATUS`, `RVAL` become 0; `BUF` and the output record take the values `u`, which
the spec leaves unspecified (log 7). The host's coming actions and what it has read are not the block's and stay. -/
def resetBlock (u : Unspecified) (s : State) : State :=
  { s with
    buf := Memory.writeList [] 0 u.buf.toList
    len := 0
    cur := 0
    rval := 0
    status := statusCode .ok
    pos := u.pos
    acc := u.acc
    gyro := u.gyro
    ctrl := u.ctrl }

/-- The host's next action taken off the script (R58: left to right). -/
def popAction (s : State) : State := { s with script := s.script.tail }

end Sys2Proof.Machine
end

