-- ==== Sys2Proof/Machine/Command.lean ====
section
/-! DEFINITION. Machine/Command.lean: running a command word (10_state.md R26, 30_encoding.md R91) and carrying out one
host action (20_memory.md R58). -/

namespace Sys2Proof.Machine

/-- The command a word encodes runs to completion; a word that encodes none raises IllegalCommand (R91, R183). -/
def runCommand (w : CmdWord) (s : State) : Host.Outcome State Fault Refusal :=
  match decode w with
  | .ok i => exec i s
  | .error _ => .next (raise .illegalCommand s)

/-- One host action (R26, R37, R38, R201). A write of `CMD` executes the command `v[15:0]`. -/
def act (a : HostAction) (s : State) : Host.Outcome State Fault Refusal :=
  match a with
  | .write num v => if hostReg num = .cmd then runCommand (v.setWidth Config.cmdW) s else .next (hostWrite (hostReg num) v s)
  | .read num => .next (deliver (hostRead (hostReg num) s) s)
  | .reset u => .next (resetBlock u s)

/-- The host action that gives the block the command word `w` (R26). -/
def commandAction (w : CmdWord) : HostAction := .write 0x00 (w.setWidth 32)

end Sys2Proof.Machine
end

