-- ==== Sys2Proof/Machine/Step.lean ====
section
/-! DEFINITION. Machine/Step.lean: one step of the machine is one host action, the head of `script` (20_memory.md R58;
log 3). -/

namespace Sys2Proof.Machine

/-- One step: the host's next action, carried out whole (R57, R58). When the host has nothing more to do the block waits,
unchanged (60_exceptions.md R185 "waits for the next command", 70_reset_and_hazards.md R213; log 5). -/
def step (s : State) : Host.Outcome State Fault Refusal :=
  match s.script with
  | [] => .next s
  | a :: _ => act a (popAction s)

/-- `s` with the host's next action made the write of the word `w` to `CMD`, before what the host was to do next: the
very next step runs that command (log 3). -/
def State.withFetchWord (s : State) (nbits w : Nat) : State :=
  { s with script := commandAction (tableWord nbits w) :: s.script }

end Sys2Proof.Machine
end

