-- ==== Sys2Proof/Machine/Script.lean ====
section
/-! DEFINITION. Machine/Script.lean: the assembler syntax of 30_encoding.md R80 and the pseudo-commands of R81: a line of
a script stands for a list of host actions. No rule of the block depends on it. Where R80 leaves the spelling open (blank
space, the base of LOAD's bytes) the reading is the model's (log 16). -/

namespace Sys2Proof.Machine

/-- A line of a script (R80, R81). -/
inductive ScriptLine
  /-- `MNEMONIC` or `MNEMONIC n`. -/
  | command (i : Instr)
  /-- `LOAD b0 b1 ... b(n-1)`. -/
  | load (bytes : List Byte)
  /-- `WRITE reg, v`. -/
  | write (num : Byte) (v : Word)
  /-- `READ reg`. -/
  | read (num : Byte)
  /-- `REWIND`. -/
  | rewind
  /-- `POS_AT n`. -/
  | posAt (n : Nat)
  /-- `ORI_AT n`. -/
  | oriAt (n : Nat)
  /-- `DECRYPT_THEN c`. -/
  | decryptThen (c : Instr)
  /-- A line that holds at most a comment. -/
  | blank
deriving DecidableEq, Repr

/-- The host action that issues a command (R80: "write the encoded word to `CMD`"). -/
def issue (i : Instr) : HostAction := commandAction (encode i)

/-- `BUF[a] <- b0`, `BUF[a+1] <- b1`, ... as host writes (R36, R80). -/
def loadWrites : Nat → List Byte → List HostAction
  | _, [] => []
  | a, b :: bs => .write (BitVec.ofNat 8 (0x40 + a)) (b.setWidth 32) :: loadWrites (a + 1) bs

/-- The host actions a line stands for (R80, R81). If the first command of a pseudo-command raises, the second still
executes: they are two actions (R81). -/
def ScriptLine.actions : ScriptLine → List HostAction
  | .command i => [issue i]
  | .load bytes => loadWrites 0 bytes ++ [.write 0x02 (BitVec.ofNat 32 bytes.length)]
  | .write num v => [.write num v]
  | .read num => [.read num]
  | .rewind => [issue (.setcur 0)]
  | .posAt n => [issue (.setcur n), issue .decPos]
  | .oriAt n => [issue (.setcur n), issue .decOri]
  | .decryptThen c => [issue .decrypt, issue c]
  | .blank => []

/-! ### The text of a line -/

/-- Blank space and commas separate the parts of a line. -/
def isSeparator (c : Char) : Bool := c == ' ' || c == '\t' || c == ','

/-- The parts of a line; a `;` starts a comment (R80). `part` holds the characters of the part being read, last first. -/
def lineParts (part : List Char) : List Char → List (List Char)
  | [] => if part.isEmpty then [] else [part.reverse]
  | c :: cs =>
    if c == ';' then (if part.isEmpty then [] else [part.reverse])
    else if isSeparator c then (if part.isEmpty then lineParts [] cs else part.reverse :: lineParts [] cs)
    else lineParts (c :: part) cs

/-- The digits of R80's numbers, each at the place of its value. Small letters count as capitals (log 16). -/
def digitChars : List Char := "0123456789ABCDEF".toList

/-- The value of `c` as a digit of base `base`, 10 or 16. -/
def digitValue (base : Nat) (c : Char) : Option Nat := (digitChars.take base).idxOf? c.toUpper

/-- The number `acc` with the digit `c` of base `base` written after it. -/
def appendDigit (base acc : Nat) (c : Char) : Option Nat := (digitValue base c).map fun d => base * acc + d

/-- A number in base `base`, of one digit or more. -/
def baseNumber (base : Nat) (cs : List Char) : Option Nat :=
  if cs.isEmpty then none else cs.foldlM (appendDigit base) 0

/-- A decimal or `0x` number (R80). -/
def parseNumber : List Char → Option Nat
  | '0' :: 'x' :: cs => baseNumber 16 cs
  | cs => baseNumber 10 cs

/-- A number below `bound`. -/
def parseBelow (bound : Nat) (cs : List Char) : Option Nat :=
  match parseNumber cs with
  | some n => if n < bound then some n else none
  | none => none

/-- The command with a given mnemonic and no operand (R76). -/
def commandNamed (cs : List Char) : Option Instr :=
  List.lookup (String.ofList cs)
    [("RD8", .rd8), ("RD16", .rd16), ("RD32", .rd32), ("DECRYPT", .decrypt), ("DEC_POS", .decPos),
      ("DEC_ORI", .decOri), ("DEC_CTRL", .decCtrl), ("DEC_HMD", .decHmd), ("DEC_BASE", .decBase)]

/-- The line with a given name and a number 0 to 255 (R80, R81). -/
def numberedLine (name : List Char) (n : Nat) : Option ScriptLine :=
  List.lookup (String.ofList name)
    [("SETCUR", .command (.setcur n)), ("SKIP", .command (.skip n)), ("POS_AT", .posAt n), ("ORI_AT", .oriAt n)]

/-- A register name, or the name of a bank before its index (R36): its first number and how many registers it has. -/
def registerBank (name : List Char) : Option (Nat × Nat) :=
  List.lookup (String.ofList name)
    [("CMD", 0x00, 1), ("STATUS", 0x01, 1), ("LEN", 0x02, 1), ("CUR", 0x03, 1), ("RVAL", 0x04, 1), ("POS", 0x10, 3),
      ("ACC", 0x14, 3), ("GYRO", 0x18, 3), ("CTRL", 0x20, 8), ("BUF", 0x40, 64)]

/-- The index between `[` and `]`, or 0 where the name carries none and the bank is one register. -/
def bankOffset (size : Nat) : List Char → Option Nat
  | [] => if size = 1 then some 0 else none
  | '[' :: cs =>
    if size = 1 then none
    else if cs.getLast? = some ']' then parseBelow size cs.dropLast else none
  | _ => none

/-- A register by name (R80, R36) or by number. -/
def parseRegister (cs : List Char) : Option Byte :=
  match registerBank (cs.takeWhile (· != '[')) with
  | some (base, size) =>
    match bankOffset size (cs.dropWhile (· != '[')) with
    | some k => some (BitVec.ofNat 8 (base + k))
    | none => none
  | none =>
    match parseBelow 256 cs with
    | some n => some (BitVec.ofNat 8 n)
    | none => none

/-- A byte of LOAD: hexadecimal without prefix, as in 95_test_vectors.md. -/
def parseByte (cs : List Char) : Option Byte :=
  match baseNumber 16 cs with
  | some n => if n < 256 then some (BitVec.ofNat 8 n) else none
  | none => none

/-- The line that the parts of a line's text spell, if they spell one (R80, R81). A report of more than `BUF_CAP` bytes
cannot be loaded. -/
def lineOfParts : List (List Char) → Option ScriptLine
  | [] => some .blank
  | name :: args =>
    match String.ofList name, args with
    | "LOAD", bs =>
      match bs.mapM parseByte with
      | some bytes => if bytes.length ≤ Config.bufCap then some (.load bytes) else none
      | none => none
    | "WRITE", [reg, v] =>
      match parseRegister reg, parseBelow (2 ^ 32) v with
      | some num, some n => some (.write num (BitVec.ofNat 32 n))
      | _, _ => none
    | "READ", [reg] => (parseRegister reg).map .read
    | "REWIND", [] => some .rewind
    | "DECRYPT_THEN", [c] =>
      match commandNamed c with
      | some .decPos => some (.decryptThen .decPos)
      | some .decOri => some (.decryptThen .decOri)
      | some .decCtrl => some (.decryptThen .decCtrl)
      | some .decHmd => some (.decryptThen .decHmd)
      | some .decBase => some (.decryptThen .decBase)
      | _ => none
    | _, [] => (commandNamed name).map .command
    | _, [n] =>
      match parseBelow 256 n with
      | some k => numberedLine name k
      | none => none
    | _, _ => none

/-- The line a text spells (R80). -/
def parseLine (text : String) : Option ScriptLine := lineOfParts (lineParts [] text.toList)

/-- The host actions of a script, left to right (R80, R58); none where a line spells nothing. -/
def assemble : List String → Option (List HostAction)
  | [] => some []
  | line :: lines =>
    match parseLine line, assemble lines with
    | some l, some as => some (l.actions ++ as)
    | _, _ => none

end Sys2Proof.Machine
end

