-- ==== Sys2Proof/Safety.lean ====
section
/-! DEFINITION. Safety.lean: the terms claims use: the invariant of every reachable state, runs, the length a command
needs (00_scope.md R7), what two states have to agree on for a command (10_state.md R42), and the five composite
decoders. -/

namespace Sys2Proof

/-- DEC_CTRL and DEC_BASE, the gated decoders (R151). -/
def Instr.gated (i : Instr) : Prop := i = .decCtrl ∨ i = .decBase

/-- The composite decoders (00_scope.md R12). -/
def Instr.decoder (i : Instr) : Prop :=
  i = .decPos ∨ i = .decOri ∨ i = .decCtrl ∨ i = .decHmd ∨ i = .decBase

end Sys2Proof

namespace Sys2Proof.Machine

/-- What holds in every reachable state: the buffer in canonical form, `CUR <= LEN <= BUF_CAP` (R23), `STATUS` one of the
four codes (R25, U12). -/
structure State.Inv (s : State) : Prop where
  buf_wf : Memory.wf s.buf
  cur_le_len : s.cur.toNat ≤ s.len.toNat
  len_le_cap : s.len.toNat ≤ Config.bufCap
  status_le : s.status.toNat ≤ 3

/-- `k` steps, stopping at a fault or a refusal. -/
def run : Nat → State → Host.Outcome State Fault Refusal
  | 0, s => .next s
  | k + 1, s =>
    match step s with
    | .next t => run k t
    | .fault r => .fault r
    | .refused r => .refused r

/-- The report length a command needs to do its work, in the state it runs in (R7; the causes of R181). -/
def lengthNeeded (i : Instr) (s : State) : Nat :=
  match i with
  | .setcur n => n
  | .skip n => s.cur.toNat + n
  | .rd8 => s.cur.toNat + 1
  | .rd16 => s.cur.toNat + 2
  | .rd32 => s.cur.toNat + 4
  | .decrypt => 61
  | .decPos => s.cur.toNat + 6
  | .decOri => s.cur.toNat + 18
  | .decCtrl => 21
  | .decHmd => Config.hmdMotionOffset + 18
  | .decBase => 2

/-- The unsigned little-endian value of `n` bytes at offset `a`: the sum of `BUF[a+i] * 2^(8i)` for `i` in `0..n-1`, as
20_memory.md R52 writes it. Statements use it in place of the bit-level `memRead2` and `memRead4`. -/
def leValue (m : Memory) (a n : Nat) : Nat := ∑ i ∈ Finset.range n, (Memory.read m (a + i)).toNat * 2 ^ (8 * i)

/-- The state before a command has the parts a command reads in common: `LEN`, `CUR` and `BUF[0 .. LEN)` (R42). -/
structure SameInputs (s t : State) : Prop where
  len_eq : s.len = t.len
  cur_eq : s.cur = t.cur
  byte_eq : ∀ a, a < s.len.toNat → memRead1 s.buf a = memRead1 t.buf a

end Sys2Proof.Machine
end

