-- ==== Sys2Proof/Certificates/Slice0/Obligations.lean ====
section
/-! DEFINITION. Certificates/Slice0/Obligations.lean: the statements for the provers. A next state is written as an
explicit update of the state before, so an equation says the result, the completion and the frame at once: every field
it does not name, the buffer among them, is unchanged. `leValue m a n` is the sum of R52. -/

open Sys2Proof Sys2Proof.Machine

/-! ### Encodings -/

/-- Decode and encode agree on every well-formed command, every operand at every value (30_encoding.md R75, R76, R91).
-/
def Obligations.DecodeInvertsEncode : Prop := ∀ i : Instr, i.WellFormed → decode (encode i) = .ok i

/-- Each legal word has one meaning, and the decoder answers only well-formed commands (30_encoding.md R75, R91). -/
def Obligations.EncodeInvertsDecode : Prop :=
  ∀ (w : CmdWord) (i : Instr), decode w = .ok i → i.WellFormed ∧ encode i = w

/-- The opcode map (30_encoding.md Part 1): the word of each command decodes to it, and its encoder writes that word. -/
def Obligations.OpcodeMapWords : Prop :=
  (∀ n : Byte,
    (decode (BitVec.ofNat 16 (0x0100 + n.toNat)) = .ok (.setcur n.toNat) ∧
      encode (.setcur n.toNat) = BitVec.ofNat 16 (0x0100 + n.toNat)) ∧
    decode (BitVec.ofNat 16 (0x0200 + n.toNat)) = .ok (.skip n.toNat) ∧
      encode (.skip n.toNat) = BitVec.ofNat 16 (0x0200 + n.toNat)) ∧
  (decode 0x0800 = .ok .rd8 ∧ encode .rd8 = 0x0800) ∧ (decode 0x0900 = .ok .rd16 ∧ encode .rd16 = 0x0900) ∧
  (decode 0x0A00 = .ok .rd32 ∧ encode .rd32 = 0x0A00) ∧ (decode 0x1000 = .ok .decrypt ∧ encode .decrypt = 0x1000) ∧
  (decode 0x2000 = .ok .decPos ∧ encode .decPos = 0x2000) ∧ (decode 0x2100 = .ok .decOri ∧ encode .decOri = 0x2100) ∧
  (decode 0x2200 = .ok .decCtrl ∧ encode .decCtrl = 0x2200) ∧ (decode 0x2300 = .ok .decHmd ∧ encode .decHmd = 0x2300) ∧
  (decode 0x2400 = .ok .decBase ∧ encode .decBase = 0x2400)

/-- R78: which words are legal, that they are 521 in number, and that any other word the host writes to `CMD` sets
`STATUS` to 3 and changes nothing else. -/
def Obligations.LegalWordsAreR78 : Prop :=
  (∀ w : CmdWord, (∃ i, decode w = .ok i) ↔
    (w.toNat / 256 = 0x01 ∨ w.toNat / 256 = 0x02 ∨
      (w.toNat / 256 ∈ [0x08, 0x09, 0x0A, 0x10, 0x20, 0x21, 0x22, 0x23, 0x24] ∧ w.toNat % 256 = 0))) ∧
  (∃ l : List CmdWord, l.Nodup ∧ l.length = 521 ∧ ∀ w, w ∈ l ↔ ∃ i, decode w = .ok i) ∧
  ∀ (w : CmdWord) (s : State) (rest : List HostAction), (¬ ∃ i, decode w = .ok i) → s.script = commandAction w :: rest →
    step s = .next { s with script := rest, status := 3 }

/-! ### The field reader (40_field_reader.md) -/

/-- SETCUR (R101): `CUR <- n` for every `n` up to and including `LEN`, else code 2 and nothing else. -/
def Obligations.SetcurLoadsCursor : Prop :=
  (∀ n : Byte, encode (.setcur n.toNat) = BitVec.ofNat 16 (0x0100 + n.toNat)) ∧
  (∀ (n : Byte) (s : State), n.toNat ≤ s.len.toNat →
    exec (.setcur n.toNat) s = .next { s with cur := n, status := 0 }) ∧
  ∀ (n : Nat) (s : State), s.len.toNat < n → exec (.setcur n) s = .next { s with status := 2 }

/-- SKIP (R102): `CUR <- CUR + n` where that is at most `LEN`, the sum taken without wrapping, else code 2 and nothing
else. -/
def Obligations.SkipAdvancesCursor : Prop :=
  (∀ n : Byte, encode (.skip n.toNat) = BitVec.ofNat 16 (0x0200 + n.toNat)) ∧
  (∀ (n : Nat) (s : State) (c : Byte), c.toNat = s.cur.toNat + n → c.toNat ≤ s.len.toNat →
    exec (.skip n) s = .next { s with cur := c, status := 0 }) ∧
  ∀ (n : Nat) (s : State), s.len.toNat < s.cur.toNat + n → exec (.skip n) s = .next { s with status := 2 }

/-- RD8 (R103): the byte at the cursor, zero-extended, into `RVAL`; `CUR` moves by 1. -/
def Obligations.Rd8ReadsByte : Prop :=
  encode .rd8 = 0x0800 ∧
  (∀ (s : State) (c : Byte), c.toNat = s.cur.toNat + 1 → c.toNat ≤ s.len.toNat → c.toNat ≤ 64 →
    exec .rd8 s = .next
      { s with rval := BitVec.ofNat 32 (Memory.read s.buf s.cur.toNat).toNat, cur := c, status := 0 }) ∧
  ∀ s : State, s.len.toNat < s.cur.toNat + 1 → exec .rd8 s = .next { s with status := 2 }

/-- RD16 (R104): two bytes at the cursor, little-endian, as a two's-complement number, into `RVAL`; `CUR` moves by 2. -/
def Obligations.Rd16ReadsSigned : Prop :=
  encode .rd16 = 0x0900 ∧
  (∀ (s : State) (c : Byte) (v : Nat), c.toNat = s.cur.toNat + 2 → c.toNat ≤ s.len.toNat → c.toNat ≤ 64 →
    v = leValue s.buf s.cur.toNat 2 →
    exec .rd16 s = .next
      { s with rval := BitVec.ofInt 32 (if v < 0x8000 then (v : Int) else (v : Int) - 65536), cur := c, status := 0 }) ∧
  ∀ s : State, s.len.toNat < s.cur.toNat + 2 → exec .rd16 s = .next { s with status := 2 }

/-- RD32 (R105): four bytes at the cursor, little-endian, into `RVAL`; `CUR` moves by 4. -/
def Obligations.Rd32ReadsWord : Prop :=
  encode .rd32 = 0x0A00 ∧
  (∀ (s : State) (c : Byte), c.toNat = s.cur.toNat + 4 → c.toNat ≤ s.len.toNat → c.toNat ≤ 64 →
    exec .rd32 s = .next
      { s with rval := BitVec.ofNat 32 (leValue s.buf s.cur.toNat 4), cur := c, status := 0 }) ∧
  ∀ s : State, s.len.toNat < s.cur.toNat + 4 → exec .rd32 s = .next { s with status := 2 }

/-! ### The cipher engine (41_cipher_engine.md) -/

/-- DECRYPT (R131; 41_cipher_engine.md section 5): with `LEN >= 61` it completes; the fifteen words at offsets `1 +
4i` become the decrypted block of the words that stood there, every byte outside `[1, 61)` and every register but
`STATUS` keeps its value; with `LEN < 61` code 2 and nothing else. The premise is the buffer's canonical form, part of
`State.Inv`. -/
def Obligations.DecryptTransformsInPlace : Prop :=
  encode .decrypt = 0x1000 ∧
  (∀ s : State, Memory.wf s.buf → 61 ≤ s.len.toNat →
    ∃ m, exec .decrypt s = .next { s with buf := m, status := 0 } ∧
      (∀ i : Fin 15, leValue m (1 + 4 * i) 4 =
        ((decryptBlock (Vector.ofFn fun j => BitVec.ofNat 32 (leValue s.buf (1 + 4 * j) 4)))[i] : Word).toNat) ∧
      ∀ a, a < 1 ∨ 61 ≤ a → Memory.read m a = Memory.read s.buf a) ∧
  ∀ s : State, s.len.toNat < 61 → exec .decrypt s = .next { s with status := 2 }

/-- The mix function as a formula over natural numbers: logical shifts, left shifts that drop the bits shifted out, sums
modulo 2^32, the key word chosen by the two low bits of `p` XORed with `e` (41_cipher_engine.md section 3; the operand
placement and the grouping are the spec's own, log 9). -/
def Obligations.MixIsTheFormula : Prop :=
  ∀ (z y sum : Word) (e : BitVec 2) (p : Nat), p < 15 →
    ∃ k : Fin 4, k.val = (p ^^^ e.toNat) % 4 ∧
      (mix z y sum e p).toNat =
        (((z.toNat / 32) ^^^ (y.toNat * 4 % 2 ^ 32)) + ((y.toNat / 8) ^^^ (z.toNat * 16 % 2 ^ 32))) % 2 ^ 32 ^^^
        ((sum.toNat ^^^ y.toNat) + ((Config.key k).toNat ^^^ z.toNat)) % 2 ^ 32

/-- The constants and the schedule (R122; the tables of R123, which the spec derives from it): DECRYPT's map is four
rounds with the sums and the values of `E` of the table, and the key index of each `p` and `E` is the table's. -/
def Obligations.KeySchedule : Prop :=
  Config.rounds = 4 ∧ Config.delta = 0x9E3779B9 ∧
  (Config.key 0 = 0x875BCC51 ∧ Config.key 1 = 0xA7637A66 ∧ Config.key 2 = 0x50960967 ∧ Config.key 3 = 0xF8536C51) ∧
  (∀ w : Block, decryptBlock w =
    decryptRound 0x9E3779B9 (decryptRound 0x3C6EF372 (decryptRound 0xDAA66D2B (decryptRound 0x78DDE6E4 w)))) ∧
  roundE 0x78DDE6E4 = 1 ∧ roundE 0xDAA66D2B = 2 ∧ roundE 0x3C6EF372 = 0 ∧ roundE 0x9E3779B9 = 2 ∧
  ((List.range 15).map fun p => (keyIndex 0 p).val) = [0, 1, 2, 3, 0, 1, 2, 3, 0, 1, 2, 3, 0, 1, 2] ∧
  ((List.range 15).map fun p => (keyIndex 1 p).val) = [1, 0, 3, 2, 1, 0, 3, 2, 1, 0, 3, 2, 1, 0, 3] ∧
  ((List.range 15).map fun p => (keyIndex 2 p).val) = [2, 3, 0, 1, 2, 3, 0, 1, 2, 3, 0, 1, 2, 3, 0]

/-- One round (R126): with `w'` the words after the round, word 14 is updated from the old words 13 and 0; each word
`p` from 13 to 1 from the old word `p - 1` and the new word `p + 1`; word 0 last, from the new words 14 and 1; and each
update is a wrapping subtraction of the mix. -/
def Obligations.RoundUpdatesInOrder : Prop :=
  ∀ (sum : Word) (w : Block), let w' := decryptRound sum w
    w'[14] = w[14] - mix w[13] w[0] sum (roundE sum) 14 ∧
    (∀ (p : Nat) (_ : 1 ≤ p) (_ : p ≤ 13), w'[p] = w[p] - mix w[p - 1] w'[p + 1] sum (roundE sum) p) ∧
    w'[0] = w[0] - mix w'[14] w'[1] sum (roundE sum) 0

/-- The formulation with a running variable gives the same words (41_cipher_engine.md section 3, the rule it numbers
134, which it marks as derived). -/
def Obligations.RunningVariableFormAgrees : Prop := ∀ w : Block, decryptBlockRunning w = decryptBlock w

/-- The round-trip laws, exact in all 480 bits (41_cipher_engine.md section 6, the rule it numbers 137, which it marks
as derived; 95_test_vectors.md V-S8). The mix function's operand placement is the spec's own (log 9); the laws hold
for any mix that does not read the word it updates. -/
def Obligations.CipherRoundTrip : Prop :=
  ∀ w : Block, decryptBlock (encrypt15 w) = w ∧ encrypt15 (decryptBlock w) = w

/-- On the machine: a report whose fifteen words are the ENCRYPT15 of `w` holds `w` after DECRYPT, with `STATUS` 0 and
nothing outside `[1, 61)` changed (41_cipher_engine.md sections 5 and 6). -/
def Obligations.DecryptRecoversPlaintext : Prop :=
  ∀ (s : State) (w : Block), Memory.wf s.buf → 61 ≤ s.len.toNat → loadBlock s.buf = encrypt15 w →
    ∃ m, exec .decrypt s = .next { s with buf := m, status := 0 } ∧
      (∀ i : Fin 15, leValue m (1 + 4 * i) 4 = (w[i] : Word).toNat) ∧
      ∀ a, a < 1 ∨ 61 ≤ a → Memory.read m a = Memory.read s.buf a

/-- A second DECRYPT transforms again (70_reset_and_hazards.md, the duty it numbers 204; 93 U14): the block keeps no
record of the first, and the words end as the transform of the transform. -/
def Obligations.SecondDecryptTransformsAgain : Prop :=
  ∀ s : State, Memory.wf s.buf → 61 ≤ s.len.toNat →
    ∃ t u, exec .decrypt s = .next t ∧ exec .decrypt t = .next u ∧ u.status = 0 ∧
      loadBlock u.buf = decryptBlock (decryptBlock (loadBlock s.buf))

/-! ### The report decoders (42_report_decoders.md) -/

/-- DEC_POS (R152): three 16-bit little-endian values at the cursor into `POS`; `CUR` does not move. -/
def Obligations.DecPosFillsPosition : Prop :=
  encode .decPos = 0x2000 ∧
  (∀ s : State, s.cur.toNat + 6 ≤ s.len.toNat → s.cur.toNat + 6 ≤ 64 →
    exec .decPos s = .next
      { s with
        pos := Vector.ofFn fun i => BitVec.ofNat 16 (leValue s.buf (s.cur.toNat + 2 * i) 2)
        status := 0 }) ∧
  ∀ s : State, s.len.toNat < s.cur.toNat + 6 → exec .decPos s = .next { s with status := 2 }

/-- DEC_ORI (R154): three 16-bit values at the cursor into `ACC`, three at the cursor plus 12 into `GYRO`; `CUR` does
not move, the six bytes between are not used, and neither register is written without the other. -/
def Obligations.DecOriFillsMotion : Prop :=
  encode .decOri = 0x2100 ∧
  (∀ s : State, s.cur.toNat + 18 ≤ s.len.toNat → s.cur.toNat + 18 ≤ 64 →
    exec .decOri s = .next
      { s with
        acc := Vector.ofFn fun i => BitVec.ofNat 16 (leValue s.buf (s.cur.toNat + 2 * i) 2)
        gyro := Vector.ofFn fun i => BitVec.ofNat 16 (leValue s.buf (s.cur.toNat + 12 + 2 * i) 2)
        status := 0 }) ∧
  ∀ s : State, s.len.toNat < s.cur.toNat + 18 → exec .decOri s = .next { s with status := 2 }

/-- DEC_CTRL (R155, R156): with `LEN >= 21` and the tag (2, 1), `CTRL[0..5]` take bits 0 to 5 of the byte at 17 and
`CTRL[6]`, `CTRL[7]` the bytes at 19 and 20; with another tag code 1 and nothing else; with `LEN < 21`, whatever the
tag, code 2 and nothing else. -/
def Obligations.DecCtrlFillsControls : Prop :=
  encode .decCtrl = 0x2200 ∧
  (∀ s : State, 21 ≤ s.len.toNat → Memory.read s.buf 0 = 2 → Memory.read s.buf 1 = 1 →
    exec .decCtrl s = .next
      { s with
        ctrl := Vector.ofFn fun i =>
          if i.val < 6 then BitVec.ofNat 8 ((Memory.read s.buf 17).toNat / 2 ^ i.val % 2)
          else if i.val = 6 then Memory.read s.buf 19 else Memory.read s.buf 20
        status := 0 }) ∧
  (∀ s : State, 21 ≤ s.len.toNat → (Memory.read s.buf 0 ≠ 2 ∨ Memory.read s.buf 1 ≠ 1) →
    exec .decCtrl s = .next { s with status := 1 }) ∧
  ∀ s : State, s.len.toNat < 21 → exec .decCtrl s = .next { s with status := 2 }

/-- DEC_HMD (42_report_decoders.md section 5) with the motion offset 31, which the spec decides and which may also be 37
(log 8): offsets 31, 33, 35 into `ACC` and 43, 45, 47 into `GYRO`, whatever the tag; `POS` and `CUR` are not touched;
`LEN < 49` gives code 2 and nothing else. -/
def Obligations.DecHmdFillsMotion : Prop :=
  encode .decHmd = 0x2300 ∧
  (∀ s : State, 49 ≤ s.len.toNat →
    exec .decHmd s = .next
      { s with
        acc := Vector.ofFn fun i => BitVec.ofNat 16 (leValue s.buf (31 + 2 * i) 2)
        gyro := Vector.ofFn fun i => BitVec.ofNat 16 (leValue s.buf (43 + 2 * i) 2)
        status := 0 }) ∧
  ∀ s : State, s.len.toNat < 49 → exec .decHmd s = .next { s with status := 2 }

/-- DEC_HMD at either admitted motion offset (90_conflicts.md C5, 92 D17, 93 U7; log 8): the motion payload at `M` and
`M + 12`, needing `M + 18` bytes. -/
def Obligations.DecodeHmdAtEitherOffset : Prop :=
  ∀ (M : Nat) (s : State), M = 31 ∨ M = 37 →
    (M + 18 ≤ s.len.toNat → decodeHmd M s = .next
      { s with
        acc := Vector.ofFn fun i => BitVec.ofNat 16 (leValue s.buf (M + 2 * i) 2)
        gyro := Vector.ofFn fun i => BitVec.ofNat 16 (leValue s.buf (M + 12 + 2 * i) 2)
        status := 0 }) ∧
    (s.len.toNat < M + 18 → decodeHmd M s = .next { s with status := 2 })

/-- DEC_BASE (R160): a bare test of the version tag; `STATUS` only. -/
def Obligations.DecBaseTestsTag : Prop :=
  encode .decBase = 0x2400 ∧
  (∀ s : State, 2 ≤ s.len.toNat → Memory.read s.buf 0 = 2 → Memory.read s.buf 1 = 1 →
    exec .decBase s = .next { s with status := 0 }) ∧
  (∀ s : State, 2 ≤ s.len.toNat → (Memory.read s.buf 0 ≠ 2 ∨ Memory.read s.buf 1 ≠ 1) →
    exec .decBase s = .next { s with status := 1 }) ∧
  ∀ s : State, s.len.toNat < 2 → exec .decBase s = .next { s with status := 2 }

/-- The composite decoders are idempotent: the same decoder twice in a row gives the same state as once
(42_report_decoders.md section 1, 20_memory.md section 5). -/
def Obligations.DecodersAreIdempotent : Prop :=
  ∀ (i : Instr) (s t : State), i.decoder → exec i s = .next t → exec i t = .next t

/-- DEC_HMD against SETCUR 31, DEC_ORI, and against the source's own SETCUR 0, SKIP 25, SKIP 6, DEC_ORI: the same state
but for `CUR` (42_report_decoders.md section 5, the equivalences it numbers 162 and marks as derived; with the decided
motion offset, log 8). -/
def Obligations.HmdEqualsSeekThenOri : Prop :=
  ∀ s : State, 49 ≤ s.len.toNat → s.len.toNat ≤ 64 →
    ∃ h a b p q r u, exec .decHmd s = .next h ∧
      exec (.setcur 31) s = .next a ∧ exec .decOri a = .next b ∧ b = { h with cur := 31 } ∧
      exec (.setcur 0) s = .next p ∧ exec (.skip 25) p = .next q ∧ exec (.skip 6) q = .next r ∧
      exec .decOri r = .next u ∧ u = b

/-- DEC_POS gives the values of three RD16 from the same cursor, each taken as its low 16 bits (42_report_decoders.md
section 5, the equivalences it numbers 162 and marks as derived). -/
def Obligations.PosEqualsThreeRd16 : Prop :=
  ∀ s : State, s.cur.toNat + 6 ≤ s.len.toNat → s.len.toNat ≤ 64 →
    ∃ p a b c, exec .decPos s = .next p ∧ exec .rd16 s = .next a ∧ exec .rd16 a = .next b ∧ exec .rd16 b = .next c ∧
      p.pos = #v[a.rval.setWidth 16, b.rval.setWidth 16, c.rval.setWidth 16] ∧ c.cur.toNat = s.cur.toNat + 6 ∧
      c.status = 0

/-- The meaning of a raw position value (R153): the exact rational `sint16 / 10000`, within -3.2768 and +3.2767, both
reached, losing nothing; the source's 160, 0, -160 mean 0.016, 0 and -0.016. -/
def Obligations.PositionInMetres : Prop :=
  (∀ v : Half, positionMetres v = (if v.toNat < 0x8000 then (v.toNat : Rat) else (v.toNat : Rat) - 65536) / 10000 ∧
    -(32768 / 10000) ≤ positionMetres v ∧ positionMetres v ≤ 32767 / 10000) ∧
  (∀ u v : Half, positionMetres u = positionMetres v → u = v) ∧
  positionMetres 0x8000 = -(32768 / 10000) ∧ positionMetres 0x7FFF = 32767 / 10000 ∧
  positionMetres 0x00A0 = 16 / 1000 ∧ positionMetres 0 = 0 ∧ positionMetres 0xFF60 = -(16 / 1000)

/-! ### The buffer (20_memory.md) -/

/-- Little-endian reads of the three widths are the sum of R52, whatever the alignment (R54). -/
def Obligations.ReadsAreLittleEndian : Prop :=
  ∀ (m : Memory) (a : Nat), (memRead1 m a).toNat = leValue m a 1 ∧ (memRead2 m a).toNat = leValue m a 2 ∧
    (memRead4 m a).toNat = leValue m a 4

/-- A 32-bit store puts byte `i` of the value at offset `a + i`, leaves every other byte alone, keeps the canonical
form, and a read of any width sees it (20_memory.md sections 2 and 3). -/
def Obligations.WordStoreIsLittleEndian : Prop :=
  ∀ (m : Memory) (a : Nat) (v : Word), Memory.wf m → a + 4 ≤ 64 →
    Memory.wf (memWrite4 m a v) ∧
    (∀ i, i < 4 → (Memory.read (memWrite4 m a v) (a + i)).toNat = v.toNat / 2 ^ (8 * i) % 256) ∧
    (∀ c, c < a ∨ a + 4 ≤ c → Memory.read (memWrite4 m a v) c = Memory.read m c) ∧
    memRead4 (memWrite4 m a v) a = v ∧ leValue (memWrite4 m a v) a 4 = v.toNat ∧
    (memRead2 (memWrite4 m a v) (a + 1)).toNat = v.toNat / 256 % 65536

/-- No command writes `LEN`, and none writes a byte at `LEN` or above; only DECRYPT writes `BUF` at all, and only
offsets 1 to 60 (10_state.md sections 1 and 2). Reads below `LEN` only are `CommandsReadOnlyTheirInputs`. -/
def Obligations.CommandsWriteBufferBelowLen : Prop :=
  ∀ (i : Instr) (s t : State), exec i s = .next t →
    t.len = s.len ∧ (i ≠ .decrypt → t.buf = s.buf) ∧
    (∀ a, a = 0 ∨ 61 ≤ a → Memory.read t.buf a = Memory.read s.buf a) ∧
    ∀ a, s.len.toNat ≤ a → Memory.read t.buf a = Memory.read s.buf a

/-! ### All commands -/

/-- Which registers each command may change: the column "written by" of 10_state.md section 1, and the write sets of
42_report_decoders.md section 1. -/
def Obligations.CommandWriteSets : Prop :=
  ∀ (i : Instr) (s t : State), exec i s = .next t →
    (t.pos ≠ s.pos → i = .decPos) ∧
    (t.acc ≠ s.acc ∨ t.gyro ≠ s.gyro → i = .decOri ∨ i = .decHmd) ∧
    (t.ctrl ≠ s.ctrl → i = .decCtrl) ∧
    (t.rval ≠ s.rval → i = .rd8 ∨ i = .rd16 ∨ i = .rd32) ∧
    (t.cur ≠ s.cur → (∃ n, i = .setcur n) ∨ (∃ n, i = .skip n) ∨ i = .rd8 ∨ i = .rd16 ∨ i = .rd32) ∧
    (t.buf ≠ s.buf → i = .decrypt) ∧
    t.len = s.len ∧ t.script = s.script ∧ t.rdata = s.rdata

/-- R185: a command that raises writes `STATUS` and nothing else. -/
def Obligations.RaisingChangesOnlyStatus : Prop :=
  ∀ (w : CmdWord) (s t : State), runCommand w s = .next t → t.status ≠ 0 → t = { s with status := t.status }

/-- R184: the result reported is the first that applies of ILLEGAL_CMD, TRUNCATED_REPORT, UNKNOWN_VERSION, OK. -/
def Obligations.ResultPriority : Prop :=
  ∀ (w : CmdWord) (s t : State), runCommand w s = .next t →
    ((∀ i, decode w ≠ .ok i) → t.status = 3) ∧
    ∀ i, decode w = .ok i →
      t.status =
        if s.len.toNat < lengthNeeded i s then 2
        else if (i = .decCtrl ∨ i = .decBase) ∧ ¬ (Memory.read s.buf 0 = 2 ∧ Memory.read s.buf 1 = 1) then 1
        else 0

/-- R181: the table of causes of TRUNCATED_REPORT. A command below the length it needs gives code 2 and changes nothing
else, and no command gives code 2 otherwise. -/
def Obligations.TruncatedReportCauses : Prop :=
  ∀ (i : Instr) (s : State),
    (s.len.toNat < lengthNeeded i s → exec i s = .next { s with status := 2 }) ∧
    ∀ t, exec i s = .next t → lengthNeeded i s ≤ s.len.toNat → t.status ≠ 2

/-- R182: UNKNOWN_VERSION is raised by DEC_CTRL and DEC_BASE alone, when the length bound holds and the tag is not
(2, 1), and then nothing but `STATUS` changes: the offending bytes stay in `BUF`. -/
def Obligations.UnknownVersionCauses : Prop :=
  ∀ (i : Instr) (s t : State), exec i s = .next t →
    (t.status = 1 ↔ (i = .decCtrl ∨ i = .decBase) ∧ lengthNeeded i s ≤ s.len.toNat ∧
      (Memory.read s.buf 0 ≠ 2 ∨ Memory.read s.buf 1 ≠ 1)) ∧
    (t.status = 1 → t = { s with status := 1 })

/-- A command that raised (60_exceptions.md section 4) gives the same result again when it is re-issued with `BUF`,
`LEN` and `CUR` unchanged, whatever else the host has changed between. -/
def Obligations.RetryGivesSameResult : Prop :=
  ∀ (i : Instr) (s t u : State), exec i s = .next t → t.status ≠ 0 → u.buf = t.buf → u.len = t.len → u.cur = t.cur →
    exec i u = .next { u with status := t.status }

/-- R42: what a command word does is decided by `BUF[0 .. LEN)`, `LEN`, `CUR` and the word alone. In two states that
agree on these (buffers in canonical form), if it completes in one it completes in the other (so, the two being any,
in both or in neither), with the same `STATUS`, the same `LEN`, `CUR` and valid bytes, and each other register either
written with the same value or left alone in both. -/
def Obligations.CommandsReadOnlyTheirInputs : Prop :=
  ∀ (w : CmdWord) (s s' t : State), Memory.wf s.buf → Memory.wf s'.buf → SameInputs s s' → runCommand w s = .next t →
    ∃ t', runCommand w s' = .next t' ∧ t.status = t'.status ∧ SameInputs t t' ∧
      (t.rval = t'.rval ∨ t.rval = s.rval ∧ t'.rval = s'.rval) ∧
      (t.pos = t'.pos ∨ t.pos = s.pos ∧ t'.pos = s'.pos) ∧
      (t.acc = t'.acc ∧ t.gyro = t'.gyro ∨ t.acc = s.acc ∧ t'.acc = s'.acc ∧ t.gyro = s.gyro ∧ t'.gyro = s'.gyro) ∧
      (t.ctrl = t'.ctrl ∨ t.ctrl = s.ctrl ∧ t'.ctrl = s'.ctrl)

/-- With `LEN` = 0 every command completes and none depends on the bytes of `BUF`, which reset leaves unspecified
(10_state.md section 9). -/
def Obligations.EmptyReportIgnoresBuffer : Prop :=
  ∀ (i : Instr) (s : State) (m : Memory), s.len = 0 →
    ∃ t, exec i s = .next t ∧ t.buf = s.buf ∧ exec i { s with buf := m } = .next { t with buf := m }

/-- The model's one stop: a command that reads or writes `BUF`, whose bound `LEN` meets although the bound lies beyond
`BUF_CAP`, and no other; and no command is refused. `LEN` above 64 is outside the invariant (10_state.md section 2;
log 6, log 11). -/
def Obligations.OnlyMissingBytesStop : Prop :=
  ∀ (i : Instr) (s : State),
    (exec i s = .fault .noSuchByte ↔
      (∀ n, i ≠ .setcur n ∧ i ≠ .skip n) ∧ 64 < lengthNeeded i s ∧ lengthNeeded i s ≤ s.len.toNat) ∧
    ∀ r, exec i s ≠ .refused r

/-! ### The host -/

/-- A step whose host action is the write to `CMD` of a value whose low 16 bits decode to a command is that command's
`exec`, at the state with the action taken off the script (10_state.md section 4; log 3). -/
def Obligations.StepRunsDecodedCommand : Prop :=
  ∀ (s : State) (v : Word) (rest : List HostAction) (i : Instr), s.script = .write 0x00 v :: rest →
    decode (v.setWidth 16) = .ok i → step s = exec i { s with script := rest }

/-- The register numbers of 10_state.md section 8; `CMD` and reserved numbers read 0, and writes to the registers that
are read only and to reserved numbers are ignored. -/
def Obligations.HostRegisterNumbers : Prop :=
  (hostReg 0x00 = .cmd ∧ hostReg 0x01 = .status ∧ hostReg 0x02 = .len ∧ hostReg 0x03 = .cur ∧ hostReg 0x04 = .rval) ∧
  (∀ i : Fin 3, hostReg (BitVec.ofNat 8 (0x10 + i)) = .pos i ∧ hostReg (BitVec.ofNat 8 (0x14 + i)) = .acc i ∧
    hostReg (BitVec.ofNat 8 (0x18 + i)) = .gyro i) ∧
  (∀ i : Fin 8, hostReg (BitVec.ofNat 8 (0x20 + i)) = .ctrl i) ∧
  (∀ i : Fin 64, hostReg (BitVec.ofNat 8 (0x40 + i)) = .buf i) ∧
  (∀ n : Byte, hostReg n = .reserved ↔
    ¬ (n.toNat ≤ 0x04 ∨ (0x10 ≤ n.toNat ∧ n.toNat ≤ 0x12) ∨ (0x14 ≤ n.toNat ∧ n.toNat ≤ 0x16) ∨
      (0x18 ≤ n.toNat ∧ n.toNat ≤ 0x1A) ∨ (0x20 ≤ n.toNat ∧ n.toNat ≤ 0x27) ∨ (0x40 ≤ n.toNat ∧ n.toNat ≤ 0x7F))) ∧
  (∀ s : State, hostRead .cmd s = 0 ∧ hostRead .reserved s = 0) ∧
  ∀ (s : State) (v : Word), hostWrite .status v s = s ∧ hostWrite .cur v s = s ∧ hostWrite .rval v s = s ∧
    hostWrite .reserved v s = s

/-- What a host write of `v` does, by register (10_state.md section 8). `LEN` saturates at 64 and rewinds `CUR`, `BUF`
keeps its bytes; an output register or a byte of `BUF` takes the low bits; `CMD` runs the command `v[15:0]`; a write
to any other register is ignored; and nothing else changes, `STATUS` in particular. -/
def Obligations.HostWriteEffects : Prop :=
  ∀ (s : State) (n : Byte) (v : Word) (rest : List HostAction), s.script = .write n v :: rest →
    (hostReg n = .cmd → step s = runCommand (v.setWidth 16) { s with script := rest }) ∧
    (hostReg n = .len → ∃ l : Byte, l.toNat = min (v.toNat % 256) 64 ∧
      step s = .next { s with script := rest, len := l, cur := 0 }) ∧
    (∀ i, hostReg n = .pos i → step s = .next { s with script := rest, pos := s.pos.set i (v.setWidth 16) }) ∧
    (∀ i, hostReg n = .acc i → step s = .next { s with script := rest, acc := s.acc.set i (v.setWidth 16) }) ∧
    (∀ i, hostReg n = .gyro i → step s = .next { s with script := rest, gyro := s.gyro.set i (v.setWidth 16) }) ∧
    (∀ i, hostReg n = .ctrl i → step s = .next { s with script := rest, ctrl := s.ctrl.set i (v.setWidth 8) }) ∧
    (∀ i, hostReg n = .buf i → Memory.wf s.buf → ∃ m, step s = .next { s with script := rest, buf := m } ∧
      Memory.read m i = v.setWidth 8 ∧ ∀ a : Nat, a ≠ i.val → Memory.read m a = Memory.read s.buf a) ∧
    (hostReg n = .status ∨ hostReg n = .cur ∨ hostReg n = .rval ∨ hostReg n = .reserved →
      step s = .next { s with script := rest })

/-- A host read (10_state.md section 8) returns the register's current value, zero-extended, and changes nothing of
the block: only the model's own `rdata` (log 4), which holds the answer, and the script, which loses the action. -/
def Obligations.HostReadHasNoSideEffect : Prop :=
  ∀ (s : State) (n : Byte) (rest : List HostAction), s.script = .read n :: rest →
    ∃ v : Word, step s = .next { s with script := rest, rdata := v } ∧
      (hostReg n = .cmd ∨ hostReg n = .reserved → v.toNat = 0) ∧
      (hostReg n = .status → v.toNat = s.status.toNat) ∧ (hostReg n = .len → v.toNat = s.len.toNat) ∧
      (hostReg n = .cur → v.toNat = s.cur.toNat) ∧ (hostReg n = .rval → v.toNat = s.rval.toNat) ∧
      (∀ i, hostReg n = .pos i → v.toNat = s.pos[i].toNat) ∧ (∀ i, hostReg n = .acc i → v.toNat = s.acc[i].toNat) ∧
      (∀ i, hostReg n = .gyro i → v.toNat = s.gyro[i].toNat) ∧
      (∀ i, hostReg n = .ctrl i → v.toNat = s.ctrl[i].toNat) ∧
      ∀ i, hostReg n = .buf i → v.toNat = (Memory.read s.buf i).toNat

/-- Delivering a report (10_state.md section 8, R80's LOAD): from a state whose buffer is in canonical form, the host
actions of `LOAD b0 ... b(n-1)`, `n` at most 64, leave those bytes at the start of `BUF`, the bytes at `n` and above
as they were, `LEN` = `n`, `CUR` = 0, and nothing else changed. -/
def Obligations.LoadDeliversReport : Prop :=
  ∀ (s : State) (bytes : List Byte), Memory.wf s.buf → bytes.length ≤ 64 →
    s.script = (ScriptLine.load bytes).actions →
    ∃ m l, run (bytes.length + 1) s = .next { s with script := [], buf := m, len := l, cur := 0 } ∧
      l.toNat = bytes.length ∧ (∀ (i : Nat) (h : i < bytes.length), Memory.read m i = bytes[i]) ∧
      ∀ a, bytes.length ≤ a → Memory.read m a = Memory.read s.buf a

/-- R81: each pseudo-command is its expansion, and if the first command of an expansion raises, the second still
executes: two steps run the first command and then the second in the state the first left, whatever its result. -/
def Obligations.PseudoCommandsExpand : Prop :=
  ∀ s : State, s.script = [] →
    run 1 { s with script := ScriptLine.rewind.actions } = exec (.setcur 0) s ∧
    (∀ n, n < 256 → ∃ a, exec (.setcur n) s = .next a ∧
      run 2 { s with script := (ScriptLine.posAt n).actions } = exec .decPos a ∧
      run 2 { s with script := (ScriptLine.oriAt n).actions } = exec .decOri a) ∧
    ∀ c, Instr.decoder c → ∃ a, exec .decrypt s = .next a ∧
      run 2 { s with script := (ScriptLine.decryptThen c).actions } = exec c a

/-- One step takes exactly one action off the script, and no command adds to it (20_memory.md section 6; the script is the
model's choice, log 3). -/
def Obligations.StepTakesOneAction : Prop := ∀ s t : State, step s = .next t → t.script = s.script.tail

/-- When the host does nothing the block waits unchanged. The model's own convention (log 5). -/
def Obligations.IdleStepWaits : Prop := ∀ s : State, s.script = [] → step s = .next s

/-! ### Reset and whole runs -/

/-- Reset (70_reset_and_hazards.md section 1, 10_state.md section 9) sets `LEN`, `CUR`, `STATUS`, `RVAL` to 0 and gives
`BUF` and the output record unspecified values `u`, which they then hold. That the model's own `script` and `rdata` stay
as they are is log 7. -/
def Obligations.ResetSetsControlRegisters : Prop :=
  ∀ (s : State) (u : Unspecified) (rest : List HostAction), s.script = .reset u :: rest →
    ∃ m, step s = .next
        { buf := m, len := 0, cur := 0, rval := 0, status := 0, pos := u.pos, acc := u.acc, gyro := u.gyro, ctrl := u.ctrl,
          script := rest, rdata := s.rdata } ∧
      ∀ a : Fin 64, Memory.read m a = u.buf[a]

/-- The state the model starts in has the control registers of 10_state.md section 9 and meets the invariant. Its zeros
in `BUF` and the output record are the model's choice (log 1, log 2), and nothing here says them. -/
def Obligations.ResetMeetsInvariant : Prop :=
  State.reset.Inv ∧ State.reset.len = 0 ∧ State.reset.cur = 0 ∧ State.reset.status = 0 ∧ State.reset.rval = 0

/-- Every step keeps the invariant: `CUR <= LEN <= BUF_CAP` (10_state.md section 3), `STATUS` one of the four codes, the
buffer in canonical form; whatever the host does. -/
def Obligations.StepKeepsInvariant : Prop := ∀ s t : State, s.Inv → step s = .next t → t.Inv

/-- Every step completes from every state of the invariant: no host action and no command word stops the machine
(70_reset_and_hazards.md section 3: "every command is one step that always completes"). -/
def Obligations.InvariantStepCompletes : Prop := ∀ s : State, s.Inv → ∃ t, step s = .next t

/-- Every run after a reset, whatever reset left in `BUF` and the output record and whatever the host does, goes on for
ever without a fault or a refusal, inside the invariant (10_state.md sections 3 and 9, 70_reset_and_hazards.md
section 3). -/
def Obligations.RunsFromResetNeverStop : Prop :=
  ∀ (u : Unspecified) (script : List HostAction) (k : Nat),
    ∃ t, run k { resetBlock u State.reset with script := script } = .next t ∧ t.Inv
end

