-- ==== Sys2Proof/Laws/Cipher.lean ====
section
/-! SUPPORT. Laws/Cipher.lean: one update of the cipher changes one word, and that word is in neither of its own mix
operands (41_cipher_engine.md R125, R135). -/

namespace Sys2Proof.Machine

/-- The word before `p` is another word (R135: 15 > 2). -/
theorem pred_ne (p : Fin 15) : p - 1 ≠ p := by revert p; decide

/-- The word after `p` is another word (R135: 15 > 2). -/
theorem succ_ne (p : Fin 15) : p + 1 ≠ p := by revert p; decide

theorem set_getElem_self (w : Block) (p : Fin 15) (v : Word) : (w.set p v)[p] = v := by simp

theorem set_getElem_ne (w : Block) {p q : Fin 15} (v : Word) (h : q ≠ p) : (w.set p v)[q] = w[q] := by
  simp only [Fin.getElem_fin]
  exact Vector.getElem_set_ne _ _ fun e => h (Fin.ext e.symm)

theorem set_set_self (w : Block) (p : Fin 15) (u v : Word) : (w.set p u).set p v = w.set p v := by
  ext1 i hi
  simp only [Vector.getElem_set]
  split <;> rfl

theorem set_getElem_eq_self (w : Block) (p : Fin 15) : w.set p w[p] = w := by
  ext1 i hi
  simp only [Vector.getElem_set]
  split
  · next h => subst h; rfl
  · rfl

/-- The mix value for word `p` does not depend on word `p` (R135). -/
theorem mixAt_set_self (sum : Word) (w : Block) (p : Fin 15) (v : Word) : mixAt sum (w.set p v) p = mixAt sum w p := by
  unfold mixAt
  rw [set_getElem_ne w v (pred_ne p), set_getElem_ne w v (succ_ne p)]

theorem decryptStep_getElem_self (sum : Word) (w : Block) (p : Fin 15) :
    (decryptStep sum w p)[p] = w[p] - mixAt sum w p := set_getElem_self w p _

theorem decryptStep_getElem_ne (sum : Word) (w : Block) {p q : Fin 15} (h : q ≠ p) :
    (decryptStep sum w p)[q] = w[q] := set_getElem_ne w _ h

theorem encryptStep_getElem_self (sum : Word) (w : Block) (p : Fin 15) :
    (encryptStep sum w p)[p] = w[p] + mixAt sum w p := set_getElem_self w p _

theorem encryptStep_getElem_ne (sum : Word) (w : Block) {p q : Fin 15} (h : q ≠ p) :
    (encryptStep sum w p)[q] = w[q] := set_getElem_ne w _ h

end Sys2Proof.Machine
end

