-- ==== Sys2Proof/Laws/Config.lean ====
section
/-! SUPPORT. Laws/Config.lean: the values of the numeric parameters (00_scope.md R6, R7), for simp and omega. -/

namespace Sys2Proof.Config

@[simp] theorem bufCap_eq : bufCap = 64 := rfl
@[simp] theorem cryptOffset_eq : cryptOffset = 1 := rfl
@[simp] theorem cryptLen_eq : cryptLen = 60 := rfl
@[simp] theorem rounds_eq : rounds = 4 := rfl
@[simp] theorem ctrlBtnOffset_eq : ctrlBtnOffset = 17 := rfl
@[simp] theorem ctrlPadXOffset_eq : ctrlPadXOffset = 19 := rfl
@[simp] theorem ctrlPadYOffset_eq : ctrlPadYOffset = 20 := rfl
@[simp] theorem oriGap_eq : oriGap = 6 := rfl
@[simp] theorem hmdMotionOffset_eq : hmdMotionOffset = 31 := rfl
@[simp] theorem lenW_eq : lenW = 8 := rfl
@[simp] theorem curW_eq : curW = 8 := rfl
@[simp] theorem cmdW_eq : cmdW = 16 := rfl
@[simp] theorem rvalW_eq : rvalW = 32 := rfl

end Sys2Proof.Config
end

