-- ==== Sys2Proof/Laws/Memory.lean ====
section
/-! SUPPORT. Laws/Memory.lean: reading after writing, and that every memory operation keeps the canonical form. -/

namespace Sys2Proof.Machine

/-! ### One byte -/

@[simp] theorem read_nil (a : Nat) : Memory.read [] a = unlistedByte := rfl

theorem read_cons (c : Host.Cell) (m : Memory) (a : Nat) :
    Memory.read (c :: m) a = if a = c.1 then c.2 else Memory.read m a := rfl

/-- A byte that no entry lists reads as the unlisted byte. -/
theorem read_of_not_listed {m : Memory} {a : Nat} (h : ∀ c ∈ m, c.1 ≠ a) : Memory.read m a = unlistedByte := by
  induction m with
  | nil => rfl
  | cons c m ih =>
    rw [read_cons, if_neg fun e => h c (List.mem_cons_self ..) e.symm]
    exact ih fun d hd => h d (List.mem_cons_of_mem _ hd)

theorem wf_cons {c : Host.Cell} {m : Memory} :
    Memory.wf (c :: m) ↔ (∀ d ∈ m, c.1 < d.1) ∧ (c.1 < Config.bufCap ∧ c.2 ≠ unlistedByte) ∧ Memory.wf m := by
  simp only [Memory.wf, List.pairwise_cons, List.forall_mem_cons]
  tauto

theorem wf_nil : Memory.wf [] := by decide

/-- In canonical form nothing is listed below the first entry. -/
theorem read_lt_head {c : Host.Cell} {m : Memory} (h : Memory.wf (c :: m)) {a : Nat} (ha : a < c.1) :
    Memory.read (c :: m) a = unlistedByte := by
  refine read_of_not_listed fun d hd => ?_
  rcases List.mem_cons.mp hd with rfl | hd
  · omega
  · have := (wf_cons.mp h).1 d hd
    omega

/-- A write leaves every other byte alone, in every list. -/
theorem read_write_other (m : Memory) {a b : Nat} (v : Byte) (h : b ≠ a) :
    Memory.read (Memory.write m a v) b = Memory.read m b := by
  induction m with
  | nil => unfold Memory.write; split <;> simp [read_cons, h]
  | cons c m ih =>
    obtain ⟨c, w⟩ := c
    unfold Memory.write
    split
    · split
      · rfl
      · simp [read_cons, h]
    · split
      · next hc => subst hc; split <;> simp [read_cons, h]
      · simp [read_cons, ih]

/-- A read after a write to the same byte gives the value written. -/
theorem read_write_self {m : Memory} (hm : Memory.wf m) (a : Nat) (v : Byte) :
    Memory.read (Memory.write m a v) a = v := by
  induction m with
  | nil => unfold Memory.write; split <;> simp_all [read_cons]
  | cons c m ih =>
    obtain ⟨c, w⟩ := c
    have hm' := wf_cons.mp hm
    unfold Memory.write
    split
    · next hlt =>
      split
      · next hv => rw [hv]; exact read_lt_head hm hlt
      · simp [read_cons]
    · split
      · next hc =>
        subst hc
        split
        · next hv =>
          rw [hv]
          exact read_of_not_listed fun d hd e => by have := hm'.1 d hd; simp at this; omega
        · simp [read_cons]
      · next hne => rw [read_cons, if_neg hne]; exact ih hm'.2.2

/-- Every entry after a write is an old one or the byte written. -/
theorem mem_write {m : Memory} {a : Nat} {v : Byte} {d : Host.Cell} (h : d ∈ Memory.write m a v) :
    d ∈ m ∨ (d = (a, v) ∧ v ≠ unlistedByte) := by
  induction m with
  | nil => unfold Memory.write at h; split at h <;> simp_all
  | cons c m ih =>
    obtain ⟨c, w⟩ := c
    unfold Memory.write at h
    split at h
    · split at h
      · exact .inl h
      · rcases List.mem_cons.mp h with h | h
        · exact .inr ⟨h, ‹_›⟩
        · exact .inl h
    · split at h
      · split at h
        · exact .inl (List.mem_cons_of_mem _ h)
        · rcases List.mem_cons.mp h with h | h
          · exact .inr ⟨h, ‹_›⟩
          · exact .inl (List.mem_cons_of_mem _ h)
      · rcases List.mem_cons.mp h with h | h
        · exact .inl (h ▸ List.mem_cons_self ..)
        · exact (ih h).imp (List.mem_cons_of_mem _) id

/-- A write inside the address space keeps the canonical form. -/
theorem write_wf {m : Memory} (hm : Memory.wf m) {a : Nat} (ha : a < Config.bufCap) (v : Byte) :
    Memory.wf (Memory.write m a v) := by
  induction m with
  | nil =>
    unfold Memory.write
    split
    · exact hm
    · exact wf_cons.mpr ⟨by simp, ⟨ha, ‹_›⟩, hm⟩
  | cons c m ih =>
    obtain ⟨c, w⟩ := c
    have hm' := wf_cons.mp hm
    unfold Memory.write
    split
    · next hlt =>
      split
      · exact hm
      · refine wf_cons.mpr ⟨fun d hd => ?_, ⟨ha, ‹_›⟩, hm⟩
        rcases List.mem_cons.mp hd with rfl | hd
        · exact hlt
        · exact hlt.trans (hm'.1 d hd)
    · next hge =>
      split
      · next hc =>
        split
        · exact hm'.2.2
        · exact wf_cons.mpr ⟨hc ▸ hm'.1, ⟨ha, ‹_›⟩, hm'.2.2⟩
      · refine wf_cons.mpr ⟨fun d hd => ?_, hm'.2.1, ih hm'.2.2⟩
        rcases mem_write hd with h | ⟨rfl, -⟩
        · exact hm'.1 d h
        · show c < a
          omega

/-- Two buffers in canonical form that read alike at every offset are the same list. -/
theorem wf_ext {m n : Memory} (hm : Memory.wf m) (hn : Memory.wf n) (h : ∀ a, Memory.read m a = Memory.read n a) :
    m = n := by
  induction m generalizing n with
  | nil =>
    cases n with
    | nil => rfl
    | cons d n =>
      have := h d.1
      simp [read_cons] at this
      exact absurd this.symm (wf_cons.mp hn).2.1.2
  | cons c m ih =>
    cases n with
    | nil =>
      have := h c.1
      simp [read_cons] at this
      exact absurd this (wf_cons.mp hm).2.1.2
    | cons d n =>
      have hc := wf_cons.mp hm
      have hd := wf_cons.mp hn
      have hcd : c.1 = d.1 := by
        rcases lt_trichotomy c.1 d.1 with hlt | heq | hlt
        · have := h c.1
          rw [read_lt_head hn hlt, read_cons, if_pos rfl] at this
          exact absurd this hc.2.1.2
        · exact heq
        · have := h d.1
          rw [read_lt_head hm hlt, read_cons, if_pos rfl] at this
          exact absurd this.symm hd.2.1.2
      have hv : c.2 = d.2 := by
        have := h c.1
        rwa [read_cons, if_pos rfl, read_cons, if_pos hcd] at this
      have htail : m = n := by
        refine ih hc.2.2 hd.2.2 fun a => ?_
        by_cases ha : a = c.1
        · rw [read_of_not_listed fun e he hea => by have := hc.1 e he; omega,
            read_of_not_listed fun e he hea => by have := hd.1 e he; omega]
        · have := h a
          rwa [read_cons, if_neg ha, read_cons, if_neg (hcd ▸ ha)] at this
      rw [htail, Prod.ext hcd hv]

/-! ### Consecutive bytes -/

theorem writeList_wf {m : Memory} (hm : Memory.wf m) {a : Nat} {bs : List Byte} (h : a + bs.length ≤ Config.bufCap) :
    Memory.wf (Memory.writeList m a bs) := by
  induction bs generalizing m a with
  | nil => exact hm
  | cons b bs ih =>
    rw [List.length_cons] at h
    exact ih (write_wf hm (by omega) b) (by omega)

theorem read_writeList_outside (m : Memory) {a c : Nat} (bs : List Byte) (h : c < a ∨ a + bs.length ≤ c) :
    Memory.read (Memory.writeList m a bs) c = Memory.read m c := by
  induction bs generalizing m a with
  | nil => rfl
  | cons b bs ih =>
    rw [List.length_cons] at h
    exact (ih (Memory.write m a b) (by omega)).trans (read_write_other m b (by omega))

theorem read_writeList_inside {m : Memory} (hm : Memory.wf m) {a : Nat} {bs : List Byte}
    (h : a + bs.length ≤ Config.bufCap) {i : Nat} (hi : i < bs.length) :
    Memory.read (Memory.writeList m a bs) (a + i) = bs[i] := by
  induction bs generalizing m a i with
  | nil => exact absurd hi (Nat.not_lt_zero _)
  | cons b bs ih =>
    rw [List.length_cons] at h
    cases i with
    | zero =>
      exact (read_writeList_outside _ bs (.inl (by omega))).trans (read_write_self hm a b)
    | succ i =>
      have := ih (write_wf hm (show a < Config.bufCap by omega) b) (a := a + 1) (by omega) (i := i)
        (by simpa using hi)
      rwa [Nat.add_right_comm, Nat.add_assoc] at this

/-- The buffer a reset leaves is in canonical form, whatever it holds. -/
theorem reset_buf_wf (bytes : Vector Byte 64) : Memory.wf (Memory.writeList [] 0 bytes.toList) :=
  writeList_wf wf_nil (by simp)

/-! ### 32-bit words -/

theorem memWrite4_wf {m : Memory} (hm : Memory.wf m) {a : Nat} (h : a + 4 ≤ Config.bufCap) (v : Word) :
    Memory.wf (memWrite4 m a v) :=
  writeList_wf hm h

theorem read_memWrite4_outside (m : Memory) {a c : Nat} (v : Word) (h : c < a ∨ a + 4 ≤ c) :
    Memory.read (memWrite4 m a v) c = Memory.read m c :=
  read_writeList_outside m _ h

theorem read_memWrite4_inside {m : Memory} (hm : Memory.wf m) {a : Nat} (h : a + 4 ≤ Config.bufCap) (v : Word)
    {i : Nat} (hi : i < 4) : Memory.read (memWrite4 m a v) (a + i) = byteOfWord v i := by
  unfold memWrite4
  rw [read_writeList_inside hm h hi]
  match i, hi with
  | 0, _ => rfl
  | 1, _ => rfl
  | 2, _ => rfl
  | 3, _ => rfl

/-- The four bytes of a word, put together again, are the word. -/
theorem append_bytesOfWord (v : Word) : byteOfWord v 3 ++ byteOfWord v 2 ++ byteOfWord v 1 ++ byteOfWord v 0 = v := by
  unfold byteOfWord
  ext i hi
  simp only [BitVec.getElem_append, BitVec.getElem_extractLsb']
  split <;> rename_i h1
  · simp [BitVec.getLsbD_eq_getElem hi]
  · split <;> rename_i h2
    · rw [show 8 * 1 + (i - 8) = i by omega, BitVec.getLsbD_eq_getElem hi]
    · split <;> rename_i h3
      · rw [show 8 * 2 + (i - 8 - 8) = i by omega, BitVec.getLsbD_eq_getElem hi]
      · rw [show 8 * 3 + (i - 8 - 8 - 8) = i by omega, BitVec.getLsbD_eq_getElem hi]

theorem memRead4_memWrite4_self {m : Memory} (hm : Memory.wf m) {a : Nat} (h : a + 4 ≤ Config.bufCap) (v : Word) :
    memRead4 (memWrite4 m a v) a = v := by
  have r := fun i (hi : i < 4) => read_memWrite4_inside hm h v hi
  unfold memRead4
  rw [r 3 (by omega), r 2 (by omega), r 1 (by omega), show Memory.read (memWrite4 m a v) a = _ from r 0 (by omega)]
  exact append_bytesOfWord v

/-- Byte `k` of a word read is the byte at that place. -/
theorem byteOfWord_memRead4 (m : Memory) (a : Nat) {k : Nat} (hk : k < 4) :
    byteOfWord (memRead4 m a) k = Memory.read m (a + k) := by
  unfold byteOfWord memRead4
  ext j hj
  simp only [BitVec.getElem_extractLsb', BitVec.getLsbD_append]
  match k, hk with
  | 0, _ => simp [hj]
  | 1, _ =>
    rw [if_neg (by omega), if_pos (by omega), show 8 * 1 + j - 8 = j by omega, BitVec.getLsbD_eq_getElem hj]
  | 2, _ =>
    rw [if_neg (by omega), if_neg (by omega), if_pos (by omega), show 8 * 2 + j - 8 - 8 = j by omega,
      BitVec.getLsbD_eq_getElem hj]
  | 3, _ =>
    rw [if_neg (by omega), if_neg (by omega), if_neg (by omega), show 8 * 3 + j - 8 - 8 - 8 = j by omega,
      BitVec.getLsbD_eq_getElem hj]

theorem memRead4_congr {m n : Memory} {a : Nat} (h : ∀ i, i < 4 → Memory.read m (a + i) = Memory.read n (a + i)) :
    memRead4 m a = memRead4 n a := by
  have h0 := h 0 (by omega)
  rw [Nat.add_zero] at h0
  unfold memRead4
  rw [h 3 (by omega), h 2 (by omega), h 1 (by omega), h0]

theorem memRead2_congr {m n : Memory} {a : Nat} (h : ∀ i, i < 2 → Memory.read m (a + i) = Memory.read n (a + i)) :
    memRead2 m a = memRead2 n a := by
  have h0 := h 0 (by omega)
  rw [Nat.add_zero] at h0
  unfold memRead2
  rw [h 1 (by omega), h0]

theorem fieldVec3_congr {m n : Memory} {a : Nat} (h : ∀ i, i < 6 → Memory.read m (a + i) = Memory.read n (a + i)) :
    fieldVec3 m a = fieldVec3 n a := by
  have h0 : memRead2 m a = memRead2 n a := memRead2_congr fun i hi => h i (by omega)
  have h2 : memRead2 m (a + 2) = memRead2 n (a + 2) :=
    memRead2_congr fun i hi => by rw [Nat.add_assoc]; exact h (2 + i) (by omega)
  have h4 : memRead2 m (a + 4) = memRead2 n (a + 4) :=
    memRead2_congr fun i hi => by rw [Nat.add_assoc]; exact h (4 + i) (by omega)
  unfold fieldVec3
  rw [h0, h2, h4]

/-- The controller values depend on three bytes (42_report_decoders.md R155). -/
theorem fieldControls_congr {m n : Memory} (h17 : Memory.read m 17 = Memory.read n 17)
    (h19 : Memory.read m 19 = Memory.read n 19) (h20 : Memory.read m 20 = Memory.read n 20) :
    fieldControls m = fieldControls n := by
  have hmask : memRead1 m Config.ctrlBtnOffset = memRead1 n Config.ctrlBtnOffset := h17
  have hx : memRead1 m Config.ctrlPadXOffset = memRead1 n Config.ctrlPadXOffset := h19
  have hy : memRead1 m Config.ctrlPadYOffset = memRead1 n Config.ctrlPadYOffset := h20
  simp only [fieldControls, hmask, hx, hy]

/-! ### The fifteen words of the encrypted sub-range -/

@[simp] theorem loadBlock_getElem (m : Memory) (i : Nat) (h : i < 15) :
    (loadBlock m)[i] = memRead4 m (cryptWordOffset i) := by
  simp [loadBlock]

theorem loadBlock_congr {m n : Memory} (h : ∀ a, 1 ≤ a → a < 61 → Memory.read m a = Memory.read n a) :
    loadBlock m = loadBlock n := by
  ext1 i hi
  rw [loadBlock_getElem, loadBlock_getElem]
  refine memRead4_congr fun j hj => h _ ?_ ?_ <;> simp only [cryptWordOffset, Config.cryptOffset_eq] <;> omega

/-- Storing a list of words keeps the canonical form. -/
theorem storeWords_wf (w : Block) {m : Memory} (hm : Memory.wf m) (l : List (Fin 15)) :
    Memory.wf (l.foldl (storeWord w) m) := by
  induction l generalizing m with
  | nil => exact hm
  | cons i l ih =>
    refine ih (memWrite4_wf hm ?_ _)
    have := i.isLt
    simp only [cryptWordOffset, Config.cryptOffset_eq, Config.bufCap_eq]
    omega

theorem storeBlock_wf (w : Block) {m : Memory} (hm : Memory.wf m) : Memory.wf (storeBlock w m) :=
  storeWords_wf w hm _

/-- Storing a list of words leaves alone every byte that belongs to none of them. -/
theorem read_storeWords_outside (w : Block) (m : Memory) (l : List (Fin 15)) {a : Nat}
    (h : ∀ i ∈ l, a < cryptWordOffset i ∨ cryptWordOffset i + 4 ≤ a) :
    Memory.read (l.foldl (storeWord w) m) a = Memory.read m a := by
  induction l generalizing m with
  | nil => rfl
  | cons i l ih =>
    rw [List.foldl_cons, ih _ fun j hj => h j (List.mem_cons_of_mem _ hj)]
    exact read_memWrite4_outside m _ (h i (List.mem_cons_self ..))

/-- The write-back leaves every byte outside `[1, 61)` alone. -/
theorem read_storeBlock_outside (w : Block) (m : Memory) {a : Nat} (h : a < 1 ∨ 61 ≤ a) :
    Memory.read (storeBlock w m) a = Memory.read m a := by
  refine read_storeWords_outside w m _ fun i _ => ?_
  have := i.isLt
  simp only [cryptWordOffset, Config.cryptOffset_eq]
  omega

/-- A word stored with others at other places is there afterwards. -/
theorem memRead4_storeWords (w : Block) {m : Memory} (hm : Memory.wf m) {l : List (Fin 15)} (hl : l.Nodup) {i : Fin 15}
    (hi : i ∈ l) : memRead4 (l.foldl (storeWord w) m) (cryptWordOffset i) = w[i] := by
  induction l generalizing m with
  | nil => exact absurd hi List.not_mem_nil
  | cons j l ih =>
    have hb : cryptWordOffset j + 4 ≤ Config.bufCap := by
      have := j.isLt
      simp only [cryptWordOffset, Config.cryptOffset_eq, Config.bufCap_eq]
      omega
    rw [List.foldl_cons]
    rcases List.mem_cons.mp hi with rfl | hi'
    · rw [memRead4_congr (n := storeWord w m i) fun k hk => read_storeWords_outside w _ l fun j hj => ?_]
      · exact memRead4_memWrite4_self hm hb _
      · have hne : i.val ≠ j.val := fun e => (List.nodup_cons.mp hl).1 (Fin.ext e ▸ hj)
        simp only [cryptWordOffset, Config.cryptOffset_eq]
        omega
    · exact ih (memWrite4_wf hm hb _) (List.nodup_cons.mp hl).2 hi'

/-- Byte `k` of word `i`, after the write-back, is that byte of the word. -/
theorem read_storeBlock_inside (w : Block) {m : Memory} (hm : Memory.wf m) (i : Fin 15) {k : Nat} (hk : k < 4) :
    Memory.read (storeBlock w m) (cryptWordOffset i + k) = byteOfWord w[i] k := by
  have h : memRead4 (storeBlock w m) (cryptWordOffset i) = w[i] :=
    memRead4_storeWords w hm (List.nodup_finRange 15) (List.mem_finRange i)
  rw [← h, byteOfWord_memRead4 _ _ hk]

/-- Loading the words just stored gives them back. -/
theorem loadBlock_storeBlock (w : Block) {m : Memory} (hm : Memory.wf m) : loadBlock (storeBlock w m) = w := by
  ext1 i hi
  rw [loadBlock_getElem]
  exact memRead4_storeWords w hm (List.nodup_finRange 15) (i := ⟨i, hi⟩) (List.mem_finRange _)

end Sys2Proof.Machine
end

