-- ==== Sys2Proof/Laws/State.lean ====
section
/-! SUPPORT. Laws/State.lean: what each named update of the state does to each field, one lemma a field, true by rfl. A
proof that cites them unfolds no update. -/

namespace Sys2Proof.Machine

/-! `raise` -/

@[simp] theorem raise_buf (r : ResultCode) (s : State) : (raise r s).buf = s.buf := rfl
@[simp] theorem raise_len (r : ResultCode) (s : State) : (raise r s).len = s.len := rfl
@[simp] theorem raise_cur (r : ResultCode) (s : State) : (raise r s).cur = s.cur := rfl
@[simp] theorem raise_rval (r : ResultCode) (s : State) : (raise r s).rval = s.rval := rfl
@[simp] theorem raise_status (r : ResultCode) (s : State) : (raise r s).status = statusCode r := rfl
@[simp] theorem raise_pos (r : ResultCode) (s : State) : (raise r s).pos = s.pos := rfl
@[simp] theorem raise_acc (r : ResultCode) (s : State) : (raise r s).acc = s.acc := rfl
@[simp] theorem raise_gyro (r : ResultCode) (s : State) : (raise r s).gyro = s.gyro := rfl
@[simp] theorem raise_ctrl (r : ResultCode) (s : State) : (raise r s).ctrl = s.ctrl := rfl
@[simp] theorem raise_script (r : ResultCode) (s : State) : (raise r s).script = s.script := rfl
@[simp] theorem raise_rdata (r : ResultCode) (s : State) : (raise r s).rdata = s.rdata := rfl

/-! `done` -/

@[simp] theorem done_buf (s : State) : (done s).buf = s.buf := rfl
@[simp] theorem done_len (s : State) : (done s).len = s.len := rfl
@[simp] theorem done_cur (s : State) : (done s).cur = s.cur := rfl
@[simp] theorem done_rval (s : State) : (done s).rval = s.rval := rfl
@[simp] theorem done_status (s : State) : (done s).status = 0 := rfl
@[simp] theorem done_pos (s : State) : (done s).pos = s.pos := rfl
@[simp] theorem done_acc (s : State) : (done s).acc = s.acc := rfl
@[simp] theorem done_gyro (s : State) : (done s).gyro = s.gyro := rfl
@[simp] theorem done_ctrl (s : State) : (done s).ctrl = s.ctrl := rfl
@[simp] theorem done_script (s : State) : (done s).script = s.script := rfl
@[simp] theorem done_rdata (s : State) : (done s).rdata = s.rdata := rfl

/-! `setCursor` -/

@[simp] theorem setCursor_buf (n : Nat) (s : State) : (setCursor n s).buf = s.buf := rfl
@[simp] theorem setCursor_len (n : Nat) (s : State) : (setCursor n s).len = s.len := rfl
@[simp] theorem setCursor_cur (n : Nat) (s : State) : (setCursor n s).cur = BitVec.ofNat 8 n := rfl
@[simp] theorem setCursor_rval (n : Nat) (s : State) : (setCursor n s).rval = s.rval := rfl
@[simp] theorem setCursor_status (n : Nat) (s : State) : (setCursor n s).status = s.status := rfl
@[simp] theorem setCursor_pos (n : Nat) (s : State) : (setCursor n s).pos = s.pos := rfl
@[simp] theorem setCursor_acc (n : Nat) (s : State) : (setCursor n s).acc = s.acc := rfl
@[simp] theorem setCursor_gyro (n : Nat) (s : State) : (setCursor n s).gyro = s.gyro := rfl
@[simp] theorem setCursor_ctrl (n : Nat) (s : State) : (setCursor n s).ctrl = s.ctrl := rfl
@[simp] theorem setCursor_script (n : Nat) (s : State) : (setCursor n s).script = s.script := rfl
@[simp] theorem setCursor_rdata (n : Nat) (s : State) : (setCursor n s).rdata = s.rdata := rfl

/-! `setReadValue` -/

@[simp] theorem setReadValue_buf (v : Word) (s : State) : (setReadValue v s).buf = s.buf := rfl
@[simp] theorem setReadValue_len (v : Word) (s : State) : (setReadValue v s).len = s.len := rfl
@[simp] theorem setReadValue_cur (v : Word) (s : State) : (setReadValue v s).cur = s.cur := rfl
@[simp] theorem setReadValue_rval (v : Word) (s : State) : (setReadValue v s).rval = v := rfl
@[simp] theorem setReadValue_status (v : Word) (s : State) : (setReadValue v s).status = s.status := rfl
@[simp] theorem setReadValue_pos (v : Word) (s : State) : (setReadValue v s).pos = s.pos := rfl
@[simp] theorem setReadValue_acc (v : Word) (s : State) : (setReadValue v s).acc = s.acc := rfl
@[simp] theorem setReadValue_gyro (v : Word) (s : State) : (setReadValue v s).gyro = s.gyro := rfl
@[simp] theorem setReadValue_ctrl (v : Word) (s : State) : (setReadValue v s).ctrl = s.ctrl := rfl
@[simp] theorem setReadValue_script (v : Word) (s : State) : (setReadValue v s).script = s.script := rfl
@[simp] theorem setReadValue_rdata (v : Word) (s : State) : (setReadValue v s).rdata = s.rdata := rfl

/-! `setPosition` -/

@[simp] theorem setPosition_buf (p : Vec3) (s : State) : (setPosition p s).buf = s.buf := rfl
@[simp] theorem setPosition_len (p : Vec3) (s : State) : (setPosition p s).len = s.len := rfl
@[simp] theorem setPosition_cur (p : Vec3) (s : State) : (setPosition p s).cur = s.cur := rfl
@[simp] theorem setPosition_rval (p : Vec3) (s : State) : (setPosition p s).rval = s.rval := rfl
@[simp] theorem setPosition_status (p : Vec3) (s : State) : (setPosition p s).status = s.status := rfl
@[simp] theorem setPosition_pos (p : Vec3) (s : State) : (setPosition p s).pos = p := rfl
@[simp] theorem setPosition_acc (p : Vec3) (s : State) : (setPosition p s).acc = s.acc := rfl
@[simp] theorem setPosition_gyro (p : Vec3) (s : State) : (setPosition p s).gyro = s.gyro := rfl
@[simp] theorem setPosition_ctrl (p : Vec3) (s : State) : (setPosition p s).ctrl = s.ctrl := rfl
@[simp] theorem setPosition_script (p : Vec3) (s : State) : (setPosition p s).script = s.script := rfl
@[simp] theorem setPosition_rdata (p : Vec3) (s : State) : (setPosition p s).rdata = s.rdata := rfl

/-! `setMotion` -/

@[simp] theorem setMotion_buf (a g : Vec3) (s : State) : (setMotion a g s).buf = s.buf := rfl
@[simp] theorem setMotion_len (a g : Vec3) (s : State) : (setMotion a g s).len = s.len := rfl
@[simp] theorem setMotion_cur (a g : Vec3) (s : State) : (setMotion a g s).cur = s.cur := rfl
@[simp] theorem setMotion_rval (a g : Vec3) (s : State) : (setMotion a g s).rval = s.rval := rfl
@[simp] theorem setMotion_status (a g : Vec3) (s : State) : (setMotion a g s).status = s.status := rfl
@[simp] theorem setMotion_pos (a g : Vec3) (s : State) : (setMotion a g s).pos = s.pos := rfl
@[simp] theorem setMotion_acc (a g : Vec3) (s : State) : (setMotion a g s).acc = a := rfl
@[simp] theorem setMotion_gyro (a g : Vec3) (s : State) : (setMotion a g s).gyro = g := rfl
@[simp] theorem setMotion_ctrl (a g : Vec3) (s : State) : (setMotion a g s).ctrl = s.ctrl := rfl
@[simp] theorem setMotion_script (a g : Vec3) (s : State) : (setMotion a g s).script = s.script := rfl
@[simp] theorem setMotion_rdata (a g : Vec3) (s : State) : (setMotion a g s).rdata = s.rdata := rfl

/-! `setControls` -/

@[simp] theorem setControls_buf (c : Vector Byte 8) (s : State) : (setControls c s).buf = s.buf := rfl
@[simp] theorem setControls_len (c : Vector Byte 8) (s : State) : (setControls c s).len = s.len := rfl
@[simp] theorem setControls_cur (c : Vector Byte 8) (s : State) : (setControls c s).cur = s.cur := rfl
@[simp] theorem setControls_rval (c : Vector Byte 8) (s : State) : (setControls c s).rval = s.rval := rfl
@[simp] theorem setControls_status (c : Vector Byte 8) (s : State) : (setControls c s).status = s.status := rfl
@[simp] theorem setControls_pos (c : Vector Byte 8) (s : State) : (setControls c s).pos = s.pos := rfl
@[simp] theorem setControls_acc (c : Vector Byte 8) (s : State) : (setControls c s).acc = s.acc := rfl
@[simp] theorem setControls_gyro (c : Vector Byte 8) (s : State) : (setControls c s).gyro = s.gyro := rfl
@[simp] theorem setControls_ctrl (c : Vector Byte 8) (s : State) : (setControls c s).ctrl = c := rfl
@[simp] theorem setControls_script (c : Vector Byte 8) (s : State) : (setControls c s).script = s.script := rfl
@[simp] theorem setControls_rdata (c : Vector Byte 8) (s : State) : (setControls c s).rdata = s.rdata := rfl

/-! `setBuffer` -/

@[simp] theorem setBuffer_buf (m : Memory) (s : State) : (setBuffer m s).buf = m := rfl
@[simp] theorem setBuffer_len (m : Memory) (s : State) : (setBuffer m s).len = s.len := rfl
@[simp] theorem setBuffer_cur (m : Memory) (s : State) : (setBuffer m s).cur = s.cur := rfl
@[simp] theorem setBuffer_rval (m : Memory) (s : State) : (setBuffer m s).rval = s.rval := rfl
@[simp] theorem setBuffer_status (m : Memory) (s : State) : (setBuffer m s).status = s.status := rfl
@[simp] theorem setBuffer_pos (m : Memory) (s : State) : (setBuffer m s).pos = s.pos := rfl
@[simp] theorem setBuffer_acc (m : Memory) (s : State) : (setBuffer m s).acc = s.acc := rfl
@[simp] theorem setBuffer_gyro (m : Memory) (s : State) : (setBuffer m s).gyro = s.gyro := rfl
@[simp] theorem setBuffer_ctrl (m : Memory) (s : State) : (setBuffer m s).ctrl = s.ctrl := rfl
@[simp] theorem setBuffer_script (m : Memory) (s : State) : (setBuffer m s).script = s.script := rfl
@[simp] theorem setBuffer_rdata (m : Memory) (s : State) : (setBuffer m s).rdata = s.rdata := rfl

/-! `writeLen` -/

@[simp] theorem writeLen_buf (v : Word) (s : State) : (writeLen v s).buf = s.buf := rfl
@[simp] theorem writeLen_len (v : Word) (s : State) : (writeLen v s).len = BitVec.ofNat 8 (min (v.setWidth 8 : Byte).toNat Config.bufCap) := rfl
@[simp] theorem writeLen_cur (v : Word) (s : State) : (writeLen v s).cur = 0 := rfl
@[simp] theorem writeLen_rval (v : Word) (s : State) : (writeLen v s).rval = s.rval := rfl
@[simp] theorem writeLen_status (v : Word) (s : State) : (writeLen v s).status = s.status := rfl
@[simp] theorem writeLen_pos (v : Word) (s : State) : (writeLen v s).pos = s.pos := rfl
@[simp] theorem writeLen_acc (v : Word) (s : State) : (writeLen v s).acc = s.acc := rfl
@[simp] theorem writeLen_gyro (v : Word) (s : State) : (writeLen v s).gyro = s.gyro := rfl
@[simp] theorem writeLen_ctrl (v : Word) (s : State) : (writeLen v s).ctrl = s.ctrl := rfl
@[simp] theorem writeLen_script (v : Word) (s : State) : (writeLen v s).script = s.script := rfl
@[simp] theorem writeLen_rdata (v : Word) (s : State) : (writeLen v s).rdata = s.rdata := rfl

/-! `deliver` -/

@[simp] theorem deliver_buf (v : Word) (s : State) : (deliver v s).buf = s.buf := rfl
@[simp] theorem deliver_len (v : Word) (s : State) : (deliver v s).len = s.len := rfl
@[simp] theorem deliver_cur (v : Word) (s : State) : (deliver v s).cur = s.cur := rfl
@[simp] theorem deliver_rval (v : Word) (s : State) : (deliver v s).rval = s.rval := rfl
@[simp] theorem deliver_status (v : Word) (s : State) : (deliver v s).status = s.status := rfl
@[simp] theorem deliver_pos (v : Word) (s : State) : (deliver v s).pos = s.pos := rfl
@[simp] theorem deliver_acc (v : Word) (s : State) : (deliver v s).acc = s.acc := rfl
@[simp] theorem deliver_gyro (v : Word) (s : State) : (deliver v s).gyro = s.gyro := rfl
@[simp] theorem deliver_ctrl (v : Word) (s : State) : (deliver v s).ctrl = s.ctrl := rfl
@[simp] theorem deliver_script (v : Word) (s : State) : (deliver v s).script = s.script := rfl
@[simp] theorem deliver_rdata (v : Word) (s : State) : (deliver v s).rdata = v := rfl

/-! `resetBlock` -/

@[simp] theorem resetBlock_buf (u : Unspecified) (s : State) : (resetBlock u s).buf = Memory.writeList [] 0 u.buf.toList := rfl
@[simp] theorem resetBlock_len (u : Unspecified) (s : State) : (resetBlock u s).len = 0 := rfl
@[simp] theorem resetBlock_cur (u : Unspecified) (s : State) : (resetBlock u s).cur = 0 := rfl
@[simp] theorem resetBlock_rval (u : Unspecified) (s : State) : (resetBlock u s).rval = 0 := rfl
@[simp] theorem resetBlock_status (u : Unspecified) (s : State) : (resetBlock u s).status = 0 := rfl
@[simp] theorem resetBlock_pos (u : Unspecified) (s : State) : (resetBlock u s).pos = u.pos := rfl
@[simp] theorem resetBlock_acc (u : Unspecified) (s : State) : (resetBlock u s).acc = u.acc := rfl
@[simp] theorem resetBlock_gyro (u : Unspecified) (s : State) : (resetBlock u s).gyro = u.gyro := rfl
@[simp] theorem resetBlock_ctrl (u : Unspecified) (s : State) : (resetBlock u s).ctrl = u.ctrl := rfl
@[simp] theorem resetBlock_script (u : Unspecified) (s : State) : (resetBlock u s).script = s.script := rfl
@[simp] theorem resetBlock_rdata (u : Unspecified) (s : State) : (resetBlock u s).rdata = s.rdata := rfl

/-! `popAction` -/

@[simp] theorem popAction_buf (s : State) : (popAction s).buf = s.buf := rfl
@[simp] theorem popAction_len (s : State) : (popAction s).len = s.len := rfl
@[simp] theorem popAction_cur (s : State) : (popAction s).cur = s.cur := rfl
@[simp] theorem popAction_rval (s : State) : (popAction s).rval = s.rval := rfl
@[simp] theorem popAction_status (s : State) : (popAction s).status = s.status := rfl
@[simp] theorem popAction_pos (s : State) : (popAction s).pos = s.pos := rfl
@[simp] theorem popAction_acc (s : State) : (popAction s).acc = s.acc := rfl
@[simp] theorem popAction_gyro (s : State) : (popAction s).gyro = s.gyro := rfl
@[simp] theorem popAction_ctrl (s : State) : (popAction s).ctrl = s.ctrl := rfl
@[simp] theorem popAction_script (s : State) : (popAction s).script = s.script.tail := rfl
@[simp] theorem popAction_rdata (s : State) : (popAction s).rdata = s.rdata := rfl

/-! `State.withFetchWord` -/

@[simp] theorem withFetchWord_buf (s : State) (nbits w : Nat) : (s.withFetchWord nbits w).buf = s.buf := rfl
@[simp] theorem withFetchWord_len (s : State) (nbits w : Nat) : (s.withFetchWord nbits w).len = s.len := rfl
@[simp] theorem withFetchWord_cur (s : State) (nbits w : Nat) : (s.withFetchWord nbits w).cur = s.cur := rfl
@[simp] theorem withFetchWord_rval (s : State) (nbits w : Nat) : (s.withFetchWord nbits w).rval = s.rval := rfl
@[simp] theorem withFetchWord_status (s : State) (nbits w : Nat) : (s.withFetchWord nbits w).status = s.status := rfl
@[simp] theorem withFetchWord_pos (s : State) (nbits w : Nat) : (s.withFetchWord nbits w).pos = s.pos := rfl
@[simp] theorem withFetchWord_acc (s : State) (nbits w : Nat) : (s.withFetchWord nbits w).acc = s.acc := rfl
@[simp] theorem withFetchWord_gyro (s : State) (nbits w : Nat) : (s.withFetchWord nbits w).gyro = s.gyro := rfl
@[simp] theorem withFetchWord_ctrl (s : State) (nbits w : Nat) : (s.withFetchWord nbits w).ctrl = s.ctrl := rfl
@[simp] theorem withFetchWord_script (s : State) (nbits w : Nat) : (s.withFetchWord nbits w).script = commandAction (tableWord nbits w) :: s.script := rfl
@[simp] theorem withFetchWord_rdata (s : State) (nbits w : Nat) : (s.withFetchWord nbits w).rdata = s.rdata := rfl

end Sys2Proof.Machine
end

