-- ==== Sys2Proof/Laws/Ops.lean ====
section
/-! SUPPORT. Laws/Ops.lean: what each shared operation can do, said once. -/

namespace Sys2Proof.Machine

abbrev StepResult := Host.Outcome State Fault Refusal

/-! ### The bound (20_memory.md R56) -/

theorem withBound_short {n : Nat} {s : State} (h : s.len.toNat < n) (body : StepResult) :
    withBound n s body = .next (raise .truncatedReport s) := if_pos h

theorem withBound_enough {n : Nat} {s : State} (h : n ≤ s.len.toNat) (hc : n ≤ Config.bufCap) (body : StepResult) :
    withBound n s body = body := by
  rw [withBound, if_neg (by omega), if_neg (by omega)]

/-- A bounded command that answers a next state either raised TruncatedReport or ran within its bound. -/
theorem withBound_next {n : Nat} {s t : State} {body : StepResult} (h : withBound n s body = .next t) :
    (s.len.toNat < n ∧ t = raise .truncatedReport s) ∨ (n ≤ s.len.toNat ∧ n ≤ Config.bufCap ∧ body = .next t) := by
  unfold withBound at h
  split at h
  · exact .inl ⟨‹_›, (Host.Outcome.next.inj h).symm⟩
  · split at h
    · cases h
    · exact .inr ⟨by omega, by omega, h⟩

/-! ### The gate (42_report_decoders.md R151) -/

theorem gateOk_iff (m : Memory) : gateOk m = true ↔ Memory.read m 0 = 2 ∧ Memory.read m 1 = 1 := by
  simp [gateOk, memRead1, Config.tag0, Config.tag1]

theorem withGate_pass {s : State} (h : gateOk s.buf = true) (body : StepResult) : withGate s body = body := if_pos h

theorem withGate_fail {s : State} (h : gateOk s.buf = false) (body : StepResult) :
    withGate s body = .next (raise .unknownVersion s) := if_neg (by simp [h])

/-- A gated command that answers a next state either raised UnknownVersion or passed its gate. -/
theorem withGate_next {s t : State} {body : StepResult} (h : withGate s body = .next t) :
    (gateOk s.buf = false ∧ t = raise .unknownVersion s) ∨ (gateOk s.buf = true ∧ body = .next t) := by
  unfold withGate at h
  split at h
  · exact .inr ⟨‹_›, h⟩
  · exact .inl ⟨by simpa using ‹¬ gateOk s.buf = true›, (Host.Outcome.next.inj h).symm⟩

/-! ### The cursor (40_field_reader.md R106) -/

theorem moveCursor_beyond {n : Nat} {s : State} (h : s.len.toNat < n) :
    moveCursor n s = .next (raise .truncatedReport s) := if_pos h

theorem moveCursor_within {n : Nat} {s : State} (h : n ≤ s.len.toNat) :
    moveCursor n s = .next (done (setCursor n s)) := if_neg (by omega)

theorem moveCursor_next {n : Nat} {s t : State} (h : moveCursor n s = .next t) :
    (s.len.toNat < n ∧ t = raise .truncatedReport s) ∨ (n ≤ s.len.toNat ∧ t = done (setCursor n s)) := by
  unfold moveCursor at h
  split at h
  · exact .inl ⟨‹_›, (Host.Outcome.next.inj h).symm⟩
  · exact .inr ⟨by omega, (Host.Outcome.next.inj h).symm⟩

end Sys2Proof.Machine
end

