-- ==== Sys2Proof/Laws/Exec.lean ====
section
/-! SUPPORT. Laws/Exec.lean: what a command can do, said once for all eleven: it raises TruncatedReport, it raises
UnknownVersion, or it has its effect. -/

namespace Sys2Proof.Machine

/-- What a command that does not raise does before `done` (its pseudocode's assignments). -/
def effect (i : Instr) (s : State) : State :=
  match i with
  | .setcur n => setCursor n s
  | .skip n => setCursor (cursor s + n) s
  | .rd8 => setCursor (cursor s + 1) (setReadValue (zext32 (memRead1 s.buf (cursor s))) s)
  | .rd16 => setCursor (cursor s + 2) (setReadValue (sext32 (memRead2 s.buf (cursor s))) s)
  | .rd32 => setCursor (cursor s + 4) (setReadValue (memRead4 s.buf (cursor s)) s)
  | .decrypt => setBuffer (storeBlock (decryptBlock (loadBlock s.buf)) s.buf) s
  | .decPos => setPosition (fieldVec3 s.buf (cursor s)) s
  | .decOri => setMotion (fieldVec3 s.buf (cursor s)) (fieldVec3 s.buf (cursor s + 12)) s
  | .decCtrl => setControls (fieldControls s.buf) s
  | .decHmd => setMotion (fieldVec3 s.buf 31) (fieldVec3 s.buf 43) s
  | .decBase => s

/-- The bound a command tests reaches into `BUF`, for every command but SETCUR and SKIP. -/
def touchesBuffer (i : Instr) : Prop := (∀ n, i ≠ .setcur n) ∧ ∀ n, i ≠ .skip n

theorem not_gated_of {i : Instr} (h : i ≠ .decCtrl ∧ i ≠ .decBase) : ¬ i.gated := by
  rintro (rfl | rfl) <;> simp at h

/-- The three ways a command ends. -/
theorem exec_next_cases {i : Instr} {s t : State} (h : exec i s = .next t) :
    (s.len.toNat < lengthNeeded i s ∧ t = raise .truncatedReport s) ∨
    (lengthNeeded i s ≤ s.len.toNat ∧ i.gated ∧ gateOk s.buf = false ∧ t = raise .unknownVersion s) ∨
    (lengthNeeded i s ≤ s.len.toNat ∧ (i.gated → gateOk s.buf = true) ∧ (touchesBuffer i → lengthNeeded i s ≤ 64) ∧
      t = done (effect i s)) := by
  have bounded : ∀ {n : Nat} {e : State}, withBound n s (.next (done e)) = .next t →
      (s.len.toNat < n ∧ t = raise .truncatedReport s) ∨ (n ≤ s.len.toNat ∧ n ≤ 64 ∧ t = done e) := by
    intro n e h
    rcases withBound_next h with h | ⟨h1, h2, h3⟩
    · exact .inl h
    · exact .inr ⟨h1, h2, (Host.Outcome.next.inj h3).symm⟩
  cases i with
  | setcur n =>
    rcases moveCursor_next h with h | ⟨h1, h2⟩
    · exact .inl h
    · exact .inr (.inr ⟨h1, fun g => absurd g (not_gated_of (by simp)), fun b => absurd rfl (b.1 n), h2⟩)
  | skip n =>
    rcases moveCursor_next h with h | ⟨h1, h2⟩
    · exact .inl h
    · exact .inr (.inr ⟨h1, fun g => absurd g (not_gated_of (by simp)), fun b => absurd rfl (b.2 n), h2⟩)
  | decCtrl =>
    rcases withBound_next h with h | ⟨h1, -, h3⟩
    · exact .inl h
    · rcases withGate_next h3 with ⟨h4, h5⟩ | ⟨h4, h5⟩
      · exact .inr (.inl ⟨h1, .inl rfl, h4, h5⟩)
      · exact .inr (.inr ⟨h1, fun _ => h4, fun _ => show 21 ≤ 64 by decide, (Host.Outcome.next.inj h5).symm⟩)
  | decBase =>
    rcases withBound_next h with h | ⟨h1, -, h3⟩
    · exact .inl h
    · rcases withGate_next h3 with ⟨h4, h5⟩ | ⟨h4, h5⟩
      · exact .inr (.inl ⟨h1, .inr rfl, h4, h5⟩)
      · exact .inr (.inr ⟨h1, fun _ => h4, fun _ => show 2 ≤ 64 by decide, (Host.Outcome.next.inj h5).symm⟩)
  | rd8 | rd16 | rd32 | decrypt | decPos | decOri | decHmd =>
    rcases bounded h with h | ⟨h1, h2, h3⟩
    · exact .inl h
    · exact .inr (.inr ⟨h1, fun g => absurd g (not_gated_of (by simp)), fun _ => h2, h3⟩)

/-- A command whose length is met, inside the address space, and whose gate passes, completes with its effect. -/
theorem exec_completes {i : Instr} {s : State} (h : lengthNeeded i s ≤ s.len.toNat) (hc : touchesBuffer i → lengthNeeded i s ≤ 64)
    (hg : i.gated → gateOk s.buf = true) : exec i s = .next (done (effect i s)) := by
  cases i with
  | setcur n => exact moveCursor_within h
  | skip n => exact moveCursor_within h
  | decCtrl => exact (withBound_enough h (show 21 ≤ 64 by decide) _).trans (withGate_pass (hg (.inl rfl)) _)
  | decBase => exact (withBound_enough h (show 2 ≤ 64 by decide) _).trans (withGate_pass (hg (.inr rfl)) _)
  | rd8 | rd16 | rd32 | decrypt | decPos | decOri | decHmd =>
    exact withBound_enough h (hc (by simp [touchesBuffer])) _

/-- A command whose length is not met raises TruncatedReport. -/
theorem exec_truncated {i : Instr} {s : State} (h : s.len.toNat < lengthNeeded i s) :
    exec i s = .next (raise .truncatedReport s) := by
  cases i with
  | setcur n => exact moveCursor_beyond h
  | skip n => exact moveCursor_beyond h
  | rd8 | rd16 | rd32 | decrypt | decPos | decOri | decCtrl | decHmd | decBase => exact withBound_short h _

/-- A gated command whose length is met and whose gate fails raises UnknownVersion. -/
theorem exec_unknownVersion {i : Instr} {s : State} (hi : i.gated) (h : lengthNeeded i s ≤ s.len.toNat)
    (hg : gateOk s.buf = false) : exec i s = .next (raise .unknownVersion s) := by
  rcases hi with rfl | rfl
  · exact (withBound_enough h (show 21 ≤ 64 by decide) _).trans (withGate_fail hg _)
  · exact (withBound_enough h (show 2 ≤ 64 by decide) _).trans (withGate_fail hg _)

/-! What no command's effect changes. -/

@[simp] theorem effect_len (i : Instr) (s : State) : (effect i s).len = s.len := by
  cases i <;> simp [effect]
@[simp] theorem effect_script (i : Instr) (s : State) : (effect i s).script = s.script := by
  cases i <;> simp [effect]
@[simp] theorem effect_rdata (i : Instr) (s : State) : (effect i s).rdata = s.rdata := by
  cases i <;> simp [effect]

/-! No command looks at what the host does next. -/

theorem effect_withScript (i : Instr) (s : State) (l : List HostAction) :
    effect i { s with script := l } = { effect i s with script := l } := by
  cases i with
  | decrypt =>
    simp only [effect, setBuffer]
  | setcur n | skip n | rd8 | rd16 | rd32 | decPos | decOri | decCtrl | decHmd | decBase => rfl

/-- A command completes in the same way whatever the host does next. -/
theorem exec_withScript {i : Instr} {s t : State} (l : List HostAction) (h : exec i s = .next t) :
    exec i { s with script := l } = .next { t with script := l } := by
  have hn : lengthNeeded i { s with script := l } = lengthNeeded i s := by cases i <;> rfl
  rcases exec_next_cases h with ⟨h1, rfl⟩ | ⟨h1, h2, h3, rfl⟩ | ⟨h1, h2, h3, rfl⟩
  · exact exec_truncated (s := { s with script := l }) (by rw [hn]; exact h1)
  · exact exec_unknownVersion (s := { s with script := l }) h2 (by rw [hn]; exact h1) h3
  · rw [exec_completes (s := { s with script := l }) (by rw [hn]; exact h1) (by rw [hn]; exact h3) h2,
      effect_withScript]
    simp only [done]

end Sys2Proof.Machine
end

