-- ==== Sys2Proof/Laws/PerInstr.lean ====
section
/-! SUPPORT. Laws/PerInstr.lean: families of statements about each command as syntax, one lemma a constructor. -/

namespace Sys2Proof.Laws

/-- The two fields of a command's word are its opcode and its operand (30_encoding.md R75, R76). -/
def FieldsOfWord.Statement (i : Instr) : Prop := cmdOp (encode i) = opcodeOf i ∧ cmdImm8 (encode i) = imm8Of i

theorem cmdOp_append (op imm : Byte) : cmdOp (op ++ imm) = op := by
  unfold cmdOp
  ext i hi
  rw [BitVec.getElem_extractLsb', BitVec.getLsbD_append]
  simp [hi]

theorem cmdImm8_append (op imm : Byte) : cmdImm8 (op ++ imm) = imm := by
  unfold cmdImm8
  ext i hi
  rw [BitVec.getElem_extractLsb', BitVec.getLsbD_append]
  simp [hi]

theorem fields_of_encode (i : Instr) : FieldsOfWord.Statement i := ⟨cmdOp_append _ _, cmdImm8_append _ _⟩

theorem FieldsOfWord.setcur (n : Nat) : FieldsOfWord.Statement (.setcur n) := fields_of_encode _
theorem FieldsOfWord.skip (n : Nat) : FieldsOfWord.Statement (.skip n) := fields_of_encode _
theorem FieldsOfWord.rd8 : FieldsOfWord.Statement .rd8 := fields_of_encode _
theorem FieldsOfWord.rd16 : FieldsOfWord.Statement .rd16 := fields_of_encode _
theorem FieldsOfWord.rd32 : FieldsOfWord.Statement .rd32 := fields_of_encode _
theorem FieldsOfWord.decrypt : FieldsOfWord.Statement .decrypt := fields_of_encode _
theorem FieldsOfWord.decPos : FieldsOfWord.Statement .decPos := fields_of_encode _
theorem FieldsOfWord.decOri : FieldsOfWord.Statement .decOri := fields_of_encode _
theorem FieldsOfWord.decCtrl : FieldsOfWord.Statement .decCtrl := fields_of_encode _
theorem FieldsOfWord.decHmd : FieldsOfWord.Statement .decHmd := fields_of_encode _
theorem FieldsOfWord.decBase : FieldsOfWord.Statement .decBase := fields_of_encode _

end Sys2Proof.Laws
end

