-- ==== Sys2Proof/Laws/Step.lean ====
section
/-! SUPPORT. Laws/Step.lean: what one step can do, said once. -/

namespace Sys2Proof.Machine

theorem step_idle {s : State} (h : s.script = []) : step s = .next s := by
  unfold step; rw [h]

theorem step_action {s : State} {a : HostAction} {rest : List HostAction} (h : s.script = a :: rest) :
    step s = act a (popAction s) := by
  unfold step; rw [h]

/-- A step either waits or carries out the host's next action. -/
theorem step_next {s t : State} (h : step s = .next t) :
    (s.script = [] ∧ t = s) ∨ ∃ a rest, s.script = a :: rest ∧ act a (popAction s) = .next t := by
  cases hs : s.script with
  | nil => exact .inl ⟨rfl, (Host.Outcome.next.inj ((step_idle hs).symm.trans h)).symm⟩
  | cons a rest => exact .inr ⟨a, rest, rfl, (step_action hs).symm.trans h⟩

/-- A command word runs its command or raises IllegalCommand. -/
theorem runCommand_next {w : CmdWord} {s t : State} (h : runCommand w s = .next t) :
    (∃ i, decode w = .ok i ∧ exec i s = .next t) ∨ ((∃ e, decode w = .error e) ∧ t = raise .illegalCommand s) := by
  unfold runCommand at h
  split at h
  · exact .inl ⟨_, ‹_›, h⟩
  · exact .inr ⟨⟨_, ‹_›⟩, (Host.Outcome.next.inj h).symm⟩

theorem runCommand_ok {w : CmdWord} {i : Instr} (h : decode w = .ok i) (s : State) : runCommand w s = exec i s := by
  unfold runCommand; rw [h]

theorem runCommand_error {w : CmdWord} {e : DecodeError} (h : decode w = .error e) (s : State) :
    runCommand w s = .next (raise .illegalCommand s) := by
  unfold runCommand; rw [h]

theorem act_write (num : Byte) (v : Word) (s : State) :
    act (.write num v) s =
      if hostReg num = .cmd then runCommand (v.setWidth 16) s else .next (hostWrite (hostReg num) v s) := rfl

/-- What one host action can do. -/
theorem act_next {a : HostAction} {s t : State} (h : act a s = .next t) :
    (∃ num v, a = .write num v ∧ hostReg num = .cmd ∧ runCommand (v.setWidth 16) s = .next t) ∨
    (∃ num v, a = .write num v ∧ hostReg num ≠ .cmd ∧ t = hostWrite (hostReg num) v s) ∨
    (∃ num, a = .read num ∧ t = deliver (hostRead (hostReg num) s) s) ∨
    (∃ u, a = .reset u ∧ t = resetBlock u s) := by
  cases a with
  | write num v =>
    rw [act_write] at h
    by_cases hc : hostReg num = .cmd
    · exact .inl ⟨num, v, rfl, hc, by rwa [if_pos hc] at h⟩
    · rw [if_neg hc] at h
      exact .inr (.inl ⟨num, v, rfl, hc, (Host.Outcome.next.inj h).symm⟩)
  | read num => exact .inr (.inr (.inl ⟨num, rfl, (Host.Outcome.next.inj h).symm⟩))
  | reset u => exact .inr (.inr (.inr ⟨u, rfl, (Host.Outcome.next.inj h).symm⟩))

@[simp] theorem commandAction_word (w : CmdWord) : (w.setWidth 32 : Word).setWidth 16 = w := by
  rw [BitVec.setWidth_setWidth_of_le _ (by decide), BitVec.setWidth_eq]

/-- Issuing the command word `w` runs it. -/
theorem act_commandAction (w : CmdWord) (s : State) : act (commandAction w) s = runCommand w s := by
  rw [commandAction, act_write, if_pos (show hostReg 0x00 = .cmd from rfl), commandAction_word]

/-! ### Runs -/

@[simp] theorem run_zero (s : State) : run 0 s = .next s := rfl

/-- A run of `k + 1` steps is a step and a run of `k`. -/
theorem run_of_step {s t : State} (h : step s = .next t) (k : Nat) : run (k + 1) s = run k t := by
  rw [run, h]

/-- A run of one step is that step. -/
theorem run_one (s : State) : run 1 s = step s := by
  rw [run]
  cases step s <;> rfl

end Sys2Proof.Machine
end

