-- ==== Sys2Proof/Tests/Slice0.lean ====
section
/-! SUPPORT. Tests/Slice0.lean: tests on fixed values, their expected results from the spec (the V- and P-numbers are
those of 95_test_vectors.md), and, for each statement of Certificates/Slice0/Obligations.lean that has hypotheses, a
witness that meets them. -/

namespace Sys2Proof.Machine.Tests

set_option maxRecDepth 100000

/-- The next state, if there is one. -/
def afterStep : Host.Outcome State Fault Refusal → Option State
  | .next s => some s
  | .fault _ => none
  | .refused _ => none

theorem next_of_afterStep {o : Host.Outcome State Fault Refusal} {t : State} (h : afterStep o = some t) :
    o = .next t := by
  cases o <;> simp_all [afterStep]

/-- The decoded command, if there is one. -/
def decoded (w : CmdWord) : Option Instr :=
  match decode w with
  | .ok i => some i
  | .error _ => none

theorem not_decoded {w : CmdWord} (h : decoded w = none) : ¬ ∃ i, decode w = .ok i := by
  rintro ⟨i, hi⟩
  simp [decoded, hi] at h

/-- A report in the buffer of a block whose output record is marked as section 2.3 of 95_test_vectors.md marks it. -/
def holding (bytes : List Byte) (len cur : Byte) : State :=
  { State.reset with
    buf := Memory.writeList [] 0 bytes
    len := len
    cur := cur
    pos := Vector.replicate 3 0x7FFF
    acc := Vector.replicate 3 0x7FFF
    gyro := Vector.replicate 3 0x7FFF
    ctrl := Vector.replicate 8 0xEE }

/-- The report of V-F1 to V-F9. -/
def walk : List Byte := [0x10, 0x00, 0x00, 0x00, 0xF0, 0xFF, 0x78, 0x56, 0x34, 0x12, 0x80]

/-- The report of V-D5. -/
def motion : List Byte :=
  [0x64, 0x00, 0x38, 0xFF, 0x00, 0x40, 0xA1, 0xA2, 0xA3, 0xA4, 0xA5, 0xA6, 0xFF, 0xFF, 0x02, 0x00, 0x00, 0x80]

/-- The report of P2, with the version tag `(t0, t1)` in place of (2, 1). -/
def controller (t0 t1 : Byte) : List Byte :=
  [t0, t1, 0x00, 0xE8, 0x03, 0x30, 0xF8, 0x2C, 0x01, 0x00, 0x40, 0x00, 0x00, 0x00, 0x00, 0x00, 0x00, 0x16, 0x00, 0x80,
    0x7F]

/-- The 22 header bytes of P3 at offsets 3 to 24, which P3 calls arbitrary: each is its offset plus 30 hexadecimal. -/
def headsetHeader : List Byte := (List.range 22).map fun i => BitVec.ofNat 8 (0x30 + (3 + i))

/-- The plaintext report of P3: three bytes, the header, the position at 25, the motion block at 31, the rest from 49. -/
def headset : List Byte :=
  [0xA6, 0x02, 0x01] ++ headsetHeader ++ [0xE8, 0x03, 0x30, 0xF8, 0x2C, 0x01] ++ motion ++
    [0x07, 0x00, 0x08, 0x00, 0x09, 0x00, 0xB1, 0xB2, 0xB3, 0xB4, 0xB5, 0xB6, 0xC1, 0xC2, 0xC3]

/-- The encrypted report of V-C2. -/
def sequentialCipher : List Byte :=
  [0x00, 0xEF, 0x23, 0xF1, 0x4A, 0x68, 0xF2, 0x17, 0xD6, 0x04, 0x22, 0x47, 0xBB, 0x51, 0x78, 0x7F,
    0x3B, 0x05, 0x9C, 0x31, 0xF7, 0xC2, 0x23, 0x04, 0x2A, 0x54, 0xF8, 0x1A, 0x79, 0x87, 0x44, 0xB9] ++
  [0x8A, 0x6E, 0x88, 0x17, 0x44, 0x1E, 0x77, 0x68, 0x56, 0x81, 0xEA, 0xE7, 0xD3, 0x9A, 0x4B, 0xBE,
    0x1B, 0x4F, 0xAE, 0xFF, 0x70, 0xE9, 0xCB, 0x52, 0x4D, 0xC4, 0xB3, 0x27, 0xA8, 0x00, 0x00, 0x00]

/-- The plain words of V-C2. -/
def sequentialWords : Block :=
  #v[0x04030201, 0x08070605, 0x0C0B0A09, 0x100F0E0D, 0x14131211, 0x18171615, 0x1C1B1A19, 0x201F1E1D,
    0x24232221, 0x28272625, 0x2C2B2A29, 0x302F2E2D, 0x34333231, 0x38373635, 0x3C3B3A39]

/-! ### Well-formed commands (R77) -/

theorem test_setcur_operand_refused : (Instr.setcur 256).wellFormed = false := by decide
theorem test_skip_operand_refused : (Instr.skip 256).wellFormed = false := by decide
theorem test_operand_255_accepted : (Instr.setcur 255).wellFormed = true ∧ (Instr.skip 255).wellFormed = true := by
  decide

/-! ### Words, written out from R75 and R76 -/

theorem test_decode_setcur : decoded 0b0000000100011001 = some (.setcur 25) := by decide
theorem test_decode_skip : decoded 0b0000001011111111 = some (.skip 255) := by decide
theorem test_decode_rd8 : decoded 0b0000100000000000 = some .rd8 := by decide
theorem test_decode_rd16 : decoded 0b0000100100000000 = some .rd16 := by decide
theorem test_decode_rd32 : decoded 0b0000101000000000 = some .rd32 := by decide
theorem test_decode_decrypt : decoded 0b0001000000000000 = some .decrypt := by decide
theorem test_decode_decPos : decoded 0b0010000000000000 = some .decPos := by decide
theorem test_decode_decOri : decoded 0b0010000100000000 = some .decOri := by decide
theorem test_decode_decCtrl : decoded 0b0010001000000000 = some .decCtrl := by decide
theorem test_decode_decHmd : decoded 0b0010001100000000 = some .decHmd := by decide
theorem test_decode_decBase : decoded 0b0010010000000000 = some .decBase := by decide

/-- Section 2.4's illegal words. -/
theorem test_illegal_words : ([0x0000, 0x0001, 0x0300, 0x0700, 0x0801, 0x0901, 0x0AFF, 0x0B00, 0x1001, 0x1100, 0x1F00,
    0x2001, 0x2301, 0x2500, 0x8000, 0xFFFF] : List CmdWord).all (fun w => (decoded w).isNone) = true := by decide

theorem test_decodeTableWord : decodeTableWord 16 0x0219 = some (.skip 25) ∧ decodeTableWord 16 0x2301 = none := by
  decide

/-! ### One step of each command -/

/-- V-F11. -/
theorem test_setcur_to_end : afterStep (exec (.setcur 11) (holding walk 11 5)) = some (holding walk 11 11) := by decide
/-- V-F12. -/
theorem test_setcur_beyond :
    afterStep (exec (.setcur 12) (holding walk 11 5)) = some { holding walk 11 5 with status := 2 } := by decide
/-- V-F13. -/
theorem test_skip_to_end : afterStep (exec (.skip 6) (holding walk 11 5)) = some (holding walk 11 11) := by decide
/-- V-F16: the sum does not wrap. -/
theorem test_skip_no_wrap :
    afterStep (exec (.skip 255) (holding walk 11 5)) = some { holding walk 11 5 with status := 2 } := by decide
/-- V-F5: zero-extended. -/
theorem test_rd8_zero_extends :
    afterStep (exec .rd8 (holding walk 11 10)) = some { holding walk 11 11 with rval := 0x80 } := by decide
/-- V-F6. -/
theorem test_rd8_at_end :
    afterStep (exec .rd8 (holding walk 11 11)) = some { holding walk 11 11 with status := 2 } := by decide
/-- V-F10: sign-extended, at an odd offset. -/
theorem test_rd16_sign_extends :
    afterStep (exec .rd16 (holding walk 11 3)) = some { holding walk 11 5 with rval := 0xFFFFF000 } := by decide
/-- V-F7. -/
theorem test_rd16_one_byte_left :
    afterStep (exec .rd16 (holding walk 11 10)) = some { holding walk 11 10 with status := 2 } := by decide
/-- V-F9. -/
theorem test_rd32_unaligned :
    afterStep (exec .rd32 (holding walk 11 7)) = some { holding walk 11 11 with rval := 0x80123456 } := by decide
/-- V-F8. -/
theorem test_rd32_beyond :
    afterStep (exec .rd32 (holding walk 11 8)) = some { holding walk 11 8 with status := 2 } := by decide
/-- V-C2, the known answer. -/
theorem test_decrypt_known_answer : afterStep (exec .decrypt (holding sequentialCipher 64 37)) =
    some (holding ((List.range 61).map (BitVec.ofNat 8)) 64 37) := by decide +kernel
/-- V-C5. -/
theorem test_decrypt_60_bytes : afterStep (exec .decrypt (holding sequentialCipher 60 0)) =
    some { holding sequentialCipher 60 0 with status := 2 } := by decide
/-- V-D1. -/
theorem test_decPos : afterStep (exec .decPos (holding walk 6 0)) =
    some { holding walk 6 0 with pos := #v[0x0010, 0x0000, 0xFFF0] } := by decide
/-- V-D4. -/
theorem test_decPos_short : afterStep (exec .decPos (holding walk 5 0)) =
    some { holding walk 5 0 with status := 2 } := by decide
/-- V-D5. -/
theorem test_decOri : afterStep (exec .decOri (holding motion 18 0)) =
    some { holding motion 18 0 with acc := #v[0x0064, 0xFF38, 0x4000], gyro := #v[0xFFFF, 0x0002, 0x8000] } := by decide
/-- V-D7. -/
theorem test_decOri_short : afterStep (exec .decOri (holding motion 17 0)) =
    some { holding motion 17 0 with status := 2 } := by decide
/-- V-D8. -/
theorem test_decCtrl : afterStep (exec .decCtrl (holding (controller 2 1) 21 0)) =
    some { holding (controller 2 1) 21 0 with ctrl := #v[0, 1, 1, 0, 1, 0, 0x80, 0x7F] } := by decide
/-- V-D12: the length is tested before the gate. -/
theorem test_decCtrl_length_first : afterStep (exec .decCtrl (holding (controller 9 1) 20 0)) =
    some { holding (controller 9 1) 20 0 with status := 2 } := by decide
/-- V-D18. -/
theorem test_decHmd : afterStep (exec .decHmd (holding headset 64 0)) =
    some { holding headset 64 0 with acc := #v[0x0064, 0xFF38, 0x4000], gyro := #v[0xFFFF, 0x0002, 0x8000] } := by decide
/-- V-D21: the other admitted motion offset. -/
theorem test_decodeHmd_at_37 : afterStep (decodeHmd 37 (holding headset 64 0)) =
    some { holding headset 64 0 with acc := #v[0xA2A1, 0xA4A3, 0xA6A5], gyro := #v[0x0007, 0x0008, 0x0009] } := by decide
/-- V-D22. -/
theorem test_decBase : afterStep (exec .decBase (holding [2, 1] 2 0)) = some (holding [2, 1] 2 0) := by decide
/-- V-D23. -/
theorem test_decBase_tag : afterStep (exec .decBase (holding [2, 0] 2 0)) =
    some { holding [2, 0] 2 0 with status := 1 } := by decide

/-! ### The cipher -/

/-- V-M1 to V-M4. -/
theorem test_mix : mix 0 0 0x78DDE6E4 1 14 = 0x71315335 ∧ mix 0xFFFFFFFF 0xFFFFFFFF 0x9E3779B9 2 0 = 0xC9327CCC ∧
    mix 0x12345678 0x9ABCDEF0 0xDAA66D2B 2 7 = 0x6F040A28 ∧ mix 0x80000000 1 0x3C6EF372 0 3 = 0xB0C25FC0 := by decide
/-- V-C1. -/
theorem test_decryptBlock_zero : decryptBlock (Vector.replicate 15 0) =
    #v[0x4B92B62E, 0x9D4C84A7, 0xD5990BED, 0xA1EC0DFF, 0x6C3D5C44, 0xF56A1095, 0xA629E537, 0xDD408465,
      0xBAB19C2A, 0x2722F50A, 0xE675A9B2, 0x19AE68B1, 0xF1101E96, 0x27CF2FB3, 0xE98C0644] := by decide
/-- V-C2. -/
theorem test_encrypt15 : encrypt15 sequentialWords =
    #v[0x4AF123EF, 0xD617F268, 0xBB472204, 0x3B7F7851, 0xF7319C05, 0x2A0423C2, 0x791AF854, 0x8AB94487,
      0x4417886E, 0x5668771E, 0xD3E7EA81, 0x1BBE4B9A, 0x70FFAE4F, 0x4D52CBE9, 0xA827B3C4] := by decide

/-! ### The host's view -/

/-- V-H1 to V-H3. -/
theorem test_write_len : hostWrite (hostReg 0x02) 11 (holding walk 11 9) = holding walk 11 0 ∧
    hostWrite (hostReg 0x02) 200 (holding walk 11 9) = holding walk 64 0 ∧
    hostWrite (hostReg 0x02) 64 (holding walk 11 9) = holding walk 64 0 := by decide
/-- V-H4, V-H5. -/
theorem test_read_only : hostWrite (hostReg 0x03) 9 (holding walk 11 3) = holding walk 11 3 ∧
    hostWrite (hostReg 0x01) 0 { holding walk 11 3 with status := 2 } = { holding walk 11 3 with status := 2 } := by decide
/-- V-H6 to V-H8. -/
theorem test_host_read : hostRead (hostReg 0x05) (holding walk 11 3) = 0 ∧ hostRead (hostReg 0x00) (holding walk 11 3) = 0 ∧
    hostRead (hostReg 0x11) (hostWrite (hostReg 0x11) 0x1234 (holding walk 11 3)) = 0x1234 := by decide
/-- The first command after reset (V-F17; R183). -/
theorem test_withFetchWord : afterStep (step (State.reset.withFetchWord 16 0x0100)) = some State.reset ∧
    afterStep (step (State.reset.withFetchWord 16 0x0000)) = some { State.reset with status := 3 } := by decide
/-- P4, line 4 (R81). -/
theorem test_posAt : afterStep (run 2 { holding (controller 2 1) 21 0 with script := (ScriptLine.posAt 3).actions }) =
    some { holding (controller 2 1) 21 3 with pos := #v[0x03E8, 0xF830, 0x012C] } := by decide
/-- Lines of P1, P2 and P4, and a word that is none (R80). -/
theorem test_parseLine : parseLine "SETCUR 0x19 ; seek" = some (.command (.setcur 25)) ∧
    parseLine "WRITE BUF[1], 0x02" = some (.write 0x41 2) ∧ parseLine "LOAD 02 E3" = some (.load [0x02, 0xE3]) ∧
    parseLine "POS_AT 3" = some (.posAt 3) ∧ parseLine "SKIP 256" = none := by decide

/-! ### Witnesses: encodings -/

theorem witness_DecodeInvertsEncode : (Instr.setcur 255).WellFormed ∧ (Instr.skip 0).WellFormed ∧ Instr.decHmd.WellFormed := by
  decide
theorem witness_EncodeInvertsDecode : decode 0x01FF = .ok (.setcur 255) ∧ decode 0x2400 = .ok .decBase := ⟨rfl, rfl⟩
theorem witness_LegalWordsAreR78 : (¬ ∃ i, decode 0x0801 = .ok i) ∧
    ({ holding walk 11 5 with script := [commandAction 0x0801] } : State).script = commandAction 0x0801 :: [] :=
  ⟨not_decoded (by decide), rfl⟩

/-! ### Witnesses: the field reader, each clause at its bound -/

theorem witness_SetcurLoadsCursor : (11 : Byte).toNat ≤ (holding walk 11 5).len.toNat ∧
    (0 : Byte).toNat ≤ (holding [] 0 0).len.toNat ∧ (holding walk 11 5).len.toNat < 12 := by decide
theorem witness_SkipAdvancesCursor :
    ((11 : Byte).toNat = (holding walk 11 5).cur.toNat + 6 ∧ (11 : Byte).toNat ≤ (holding walk 11 5).len.toNat) ∧
    (holding walk 11 5).len.toNat < (holding walk 11 5).cur.toNat + 7 := by decide
theorem witness_Rd8ReadsByte :
    ((64 : Byte).toNat = (holding walk 64 63).cur.toNat + 1 ∧ (64 : Byte).toNat ≤ (holding walk 64 63).len.toNat ∧
      (64 : Byte).toNat ≤ 64) ∧
    (holding walk 11 11).len.toNat < (holding walk 11 11).cur.toNat + 1 := by decide
theorem witness_Rd16ReadsSigned :
    ((64 : Byte).toNat = (holding headset 64 62).cur.toNat + 2 ∧ (64 : Byte).toNat ≤ (holding headset 64 62).len.toNat ∧
      (64 : Byte).toNat ≤ 64 ∧ 0xC3C2 = leValue (holding headset 64 62).buf (holding headset 64 62).cur.toNat 2) ∧
    (holding walk 11 10).len.toNat < (holding walk 11 10).cur.toNat + 2 := by decide
theorem witness_Rd32ReadsWord :
    ((11 : Byte).toNat = (holding walk 11 7).cur.toNat + 4 ∧ (11 : Byte).toNat ≤ (holding walk 11 7).len.toNat ∧
      (11 : Byte).toNat ≤ 64) ∧
    (holding walk 11 8).len.toNat < (holding walk 11 8).cur.toNat + 4 := by decide

/-! ### Witnesses: the cipher engine -/

theorem witness_DecryptTransformsInPlace :
    (Memory.wf (holding sequentialCipher 61 0).buf ∧ 61 ≤ (holding sequentialCipher 61 0).len.toNat) ∧
    (holding sequentialCipher 60 0).len.toNat < 61 := by decide
theorem witness_MixIsTheFormula : 0 < 15 ∧ 14 < 15 := by decide
theorem witness_RoundUpdatesInOrder : (1 ≤ 1 ∧ 1 ≤ 13) ∧ (1 ≤ 13 ∧ 13 ≤ 13) := by decide
theorem witness_DecryptRecoversPlaintext :
    Memory.wf (holding sequentialCipher 61 0).buf ∧ 61 ≤ (holding sequentialCipher 61 0).len.toNat ∧
    loadBlock (holding sequentialCipher 61 0).buf = encrypt15 sequentialWords := by decide
theorem witness_SecondDecryptTransformsAgain :
    Memory.wf (holding sequentialCipher 64 64).buf ∧ 61 ≤ (holding sequentialCipher 64 64).len.toNat := by decide

/-! ### Witnesses: the report decoders, each clause at its bound -/

theorem witness_DecPosFillsPosition :
    ((holding headset 64 58).cur.toNat + 6 ≤ (holding headset 64 58).len.toNat ∧ (holding headset 64 58).cur.toNat + 6 ≤ 64) ∧
    (holding walk 5 0).len.toNat < (holding walk 5 0).cur.toNat + 6 := by decide
theorem witness_DecOriFillsMotion :
    ((holding headset 64 46).cur.toNat + 18 ≤ (holding headset 64 46).len.toNat ∧
      (holding headset 64 46).cur.toNat + 18 ≤ 64) ∧
    (holding motion 17 0).len.toNat < (holding motion 17 0).cur.toNat + 18 := by decide
theorem witness_DecCtrlFillsControls :
    (21 ≤ (holding (controller 2 1) 21 0).len.toNat ∧ Memory.read (holding (controller 2 1) 21 0).buf 0 = 2 ∧
      Memory.read (holding (controller 2 1) 21 0).buf 1 = 1) ∧
    (21 ≤ (holding (controller 3 1) 21 0).len.toNat ∧ Memory.read (holding (controller 3 1) 21 0).buf 0 ≠ 2) ∧
    (21 ≤ (holding (controller 2 2) 21 0).len.toNat ∧ Memory.read (holding (controller 2 2) 21 0).buf 1 ≠ 1) ∧
    (holding (controller 2 1) 20 0).len.toNat < 21 := by decide
theorem witness_DecHmdFillsMotion : 49 ≤ (holding headset 49 0).len.toNat ∧ (holding headset 48 0).len.toNat < 49 := by
  decide
theorem witness_DecodeHmdAtEitherOffset :
    (31 = 31 ∨ 31 = 37) ∧ (37 = 31 ∨ 37 = 37) ∧
    31 + 18 ≤ (holding headset 49 0).len.toNat ∧ (holding headset 48 0).len.toNat < 31 + 18 ∧
    37 + 18 ≤ (holding headset 55 0).len.toNat ∧ (holding headset 54 0).len.toNat < 37 + 18 := by decide
theorem witness_DecBaseTestsTag :
    (2 ≤ (holding [2, 1] 2 0).len.toNat ∧ Memory.read (holding [2, 1] 2 0).buf 0 = 2 ∧
      Memory.read (holding [2, 1] 2 0).buf 1 = 1) ∧
    (2 ≤ (holding [3, 1] 2 0).len.toNat ∧ Memory.read (holding [3, 1] 2 0).buf 0 ≠ 2) ∧
    (2 ≤ (holding [2, 0] 2 0).len.toNat ∧ Memory.read (holding [2, 0] 2 0).buf 1 ≠ 1) ∧
    (holding [2] 1 0).len.toNat < 2 := by decide
/-- A decoder that completes, one that finds a wrong tag and one that finds the report short. -/
theorem witness_DecodersAreIdempotent :
    (Instr.decOri.decoder ∧ ∃ t, exec .decOri (holding motion 18 0) = .next t ∧ t.status = 0) ∧
    (Instr.decBase.decoder ∧ ∃ t, exec .decBase (holding [2, 0] 2 0) = .next t ∧ t.status = 1) ∧
    (Instr.decHmd.decoder ∧ ∃ t, exec .decHmd (holding headset 48 0) = .next t ∧ t.status = 2) :=
  ⟨⟨by simp [Instr.decoder], _, next_of_afterStep test_decOri, by decide⟩,
    ⟨by simp [Instr.decoder], _, next_of_afterStep test_decBase_tag, by decide⟩,
    ⟨by simp [Instr.decoder], { holding headset 48 0 with status := 2 }, next_of_afterStep (by decide), by decide⟩⟩
theorem witness_HmdEqualsSeekThenOri :
    (49 ≤ (holding headset 49 0).len.toNat ∧ (holding headset 49 0).len.toNat ≤ 64) ∧
    (49 ≤ (holding headset 64 0).len.toNat ∧ (holding headset 64 0).len.toNat ≤ 64) := by decide
theorem witness_PosEqualsThreeRd16 :
    ((holding walk 6 0).cur.toNat + 6 ≤ (holding walk 6 0).len.toNat ∧ (holding walk 6 0).len.toNat ≤ 64) ∧
    ((holding headset 64 58).cur.toNat + 6 ≤ (holding headset 64 58).len.toNat ∧
      (holding headset 64 58).len.toNat ≤ 64) := by decide
theorem witness_PositionInMetres : positionMetres 0x00A0 = positionMetres (0x0050 + 0x0050) := by
  rw [show (0x0050 + 0x0050 : Half) = 0x00A0 by decide]

/-! ### Witnesses: the buffer and all commands -/

theorem witness_WordStoreIsLittleEndian : (Memory.wf [] ∧ 0 + 4 ≤ 64) ∧
    (Memory.wf (Memory.writeList [] 0 headset) ∧ 60 + 4 ≤ 64) := by decide
/-- DECRYPT writes `BUF` and leaves the byte at `LEN` = 61 alone; RD8 is another command. -/
theorem witness_CommandsWriteBufferBelowLen :
    (∃ t, exec .decrypt (holding sequentialCipher 61 0) = .next t ∧ t.buf ≠ (holding sequentialCipher 61 0).buf) ∧
    (∃ t, exec .rd8 (holding walk 11 10) = .next t ∧ Instr.rd8 ≠ .decrypt) ∧ (holding walk 11 10).len.toNat ≤ 11 :=
  ⟨⟨holding ((List.range 61).map (BitVec.ofNat 8)) 61 0, next_of_afterStep (by decide +kernel), by decide +kernel⟩,
    ⟨_, next_of_afterStep test_rd8_zero_extends, by decide⟩, by decide⟩
/-- Each register changes under some command. -/
theorem witness_CommandWriteSets :
    (∃ t, exec .decPos (holding walk 6 0) = .next t ∧ t.pos ≠ (holding walk 6 0).pos) ∧
    (∃ t, exec .decOri (holding motion 18 0) = .next t ∧ t.acc ≠ (holding motion 18 0).acc ∧
      t.gyro ≠ (holding motion 18 0).gyro) ∧
    (∃ t, exec .decCtrl (holding (controller 2 1) 21 0) = .next t ∧ t.ctrl ≠ (holding (controller 2 1) 21 0).ctrl) ∧
    (∃ t, exec .rd16 (holding walk 11 3) = .next t ∧ t.rval ≠ (holding walk 11 3).rval ∧ t.cur ≠ (holding walk 11 3).cur) ∧
    ∃ t, exec .decrypt (holding sequentialCipher 64 37) = .next t ∧ t.buf ≠ (holding sequentialCipher 64 37).buf :=
  ⟨⟨_, next_of_afterStep test_decPos, by decide⟩, ⟨_, next_of_afterStep test_decOri, by decide⟩,
    ⟨_, next_of_afterStep test_decCtrl, by decide⟩, ⟨_, next_of_afterStep test_rd16_sign_extends, by decide⟩,
    ⟨holding ((List.range 61).map (BitVec.ofNat 8)) 64 37, next_of_afterStep test_decrypt_known_answer, by decide +kernel⟩⟩
/-- Each of the three codes is raised. -/
theorem witness_RaisingChangesOnlyStatus :
    (∃ t, runCommand 0x2301 (holding walk 11 5) = .next t ∧ t.status = 3) ∧
    (∃ t, runCommand 0x010C (holding walk 11 5) = .next t ∧ t.status = 2) ∧
    ∃ t, runCommand 0x2400 (holding [2, 0] 2 0) = .next t ∧ t.status = 1 :=
  ⟨⟨{ holding walk 11 5 with status := 3 }, next_of_afterStep (by decide), by decide⟩,
    ⟨{ holding walk 11 5 with status := 2 }, next_of_afterStep (by decide), by decide⟩,
    ⟨{ holding [2, 0] 2 0 with status := 1 }, next_of_afterStep (by decide), by decide⟩⟩
/-- The priorities of section 2.4: `2201` illegal; `2200` short and wrongly tagged; `2200` wrongly tagged; `2200`. -/
theorem witness_ResultPriority :
    (∃ t, runCommand 0x2201 (holding (controller 9 1) 20 0) = .next t ∧ ∀ i, decode 0x2201 ≠ .ok i) ∧
    decode 0x2200 = .ok .decCtrl ∧
    (∃ t, runCommand 0x2200 (holding (controller 9 1) 20 0) = .next t ∧ t.status = 2) ∧
    (∃ t, runCommand 0x2200 (holding (controller 9 1) 21 0) = .next t ∧ t.status = 1) ∧
    ∃ t, runCommand 0x2200 (holding (controller 2 1) 21 0) = .next t ∧ t.status = 0 :=
  ⟨⟨{ holding (controller 9 1) 20 0 with status := 3 }, next_of_afterStep (by decide),
      fun i h => not_decoded (by decide) ⟨i, h⟩⟩, rfl,
    ⟨{ holding (controller 9 1) 20 0 with status := 2 }, next_of_afterStep (by decide), by decide⟩,
    ⟨{ holding (controller 9 1) 21 0 with status := 1 }, next_of_afterStep (by decide), by decide⟩,
    ⟨{ holding (controller 2 1) 21 0 with ctrl := #v[0, 1, 1, 0, 1, 0, 0x80, 0x7F] }, next_of_afterStep (by decide),
      by decide⟩⟩
theorem witness_TruncatedReportCauses :
    (holding (controller 2 1) 20 0).len.toNat < lengthNeeded .decCtrl (holding (controller 2 1) 20 0) ∧
    (∃ t, exec .decCtrl (holding (controller 2 1) 21 0) = .next t ∧
      lengthNeeded .decCtrl (holding (controller 2 1) 21 0) ≤ (holding (controller 2 1) 21 0).len.toNat) :=
  ⟨by decide, _, next_of_afterStep test_decCtrl, by decide⟩
/-- Both sides of the tag test, and its raise. -/
theorem witness_UnknownVersionCauses :
    (∃ t, exec .decBase (holding [2, 0] 2 0) = .next t ∧ t.status = 1) ∧
    ∃ t, exec .decBase (holding [2, 1] 2 0) = .next t ∧ t.status ≠ 1 :=
  ⟨⟨_, next_of_afterStep test_decBase_tag, by decide⟩, ⟨_, next_of_afterStep test_decBase, by decide⟩⟩
/-- The host has put back the output record between the two. -/
theorem witness_RetryGivesSameResult :
    ∃ t u, exec .decBase (holding [2, 0] 2 0) = .next t ∧ t.status ≠ 0 ∧ u ≠ t ∧ u.buf = t.buf ∧ u.len = t.len ∧
      u.cur = t.cur :=
  ⟨_, { holding [2, 0] 2 0 with pos := #v[1, 2, 3] }, next_of_afterStep test_decBase_tag, by decide, by decide, rfl, rfl,
    rfl⟩
/-- Two states that differ in a byte above `LEN`, in `RVAL` and in the output record. -/
theorem witness_CommandsReadOnlyTheirInputs :
    Memory.wf (holding walk 6 0).buf ∧ Memory.wf State.reset.buf ∧
    SameInputs (holding walk 6 0)
      { State.reset with buf := Memory.writeList [] 0 [0x10, 0, 0, 0, 0xF0, 0xFF, 0x11], len := 6, rval := 5 } ∧
    Memory.wf (Memory.writeList [] 0 [0x10, 0, 0, 0, 0xF0, 0xFF, 0x11]) ∧
    ∃ t, runCommand 0x2000 (holding walk 6 0) = .next t :=
  ⟨by decide, by decide, ⟨by decide, by decide, by decide⟩, by decide,
    { holding walk 6 0 with pos := #v[0x0010, 0x0000, 0xFFF0] }, next_of_afterStep (by decide)⟩
/-- A state outside the invariant that stops, and one at the same cursor that does not. -/
theorem witness_OnlyMissingBytesStop :
    exec .rd8 (holding walk 65 64) = .fault .noSuchByte ∧ (∃ t, exec .rd8 (holding walk 64 64) = .next t) :=
  ⟨rfl, { holding walk 64 64 with status := 2 }, next_of_afterStep (by decide)⟩
theorem witness_EmptyReportIgnoresBuffer : State.reset.len = 0 ∧ (holding walk 0 0).len = 0 := by decide

/-! ### Witnesses: the host -/

theorem witness_StepRunsDecodedCommand :
    ({ holding walk 11 5 with script := [.write 0x00 0x0206] } : State).script = .write 0x00 0x0206 :: [] ∧
    decode ((0x0206 : Word).setWidth 16) = .ok (.skip 6) := ⟨rfl, rfl⟩
theorem witness_HostRegisterNumbers : hostReg 0x05 = .reserved ∧ hostReg 0x13 = .reserved ∧ hostReg 0x80 = .reserved := by
  decide
/-- Each kind of register, at the ends of its numbers. -/
theorem witness_HostWriteEffects :
    ({ holding walk 11 5 with script := [.write 0x02 200] } : State).script = .write 0x02 200 :: [] ∧
    hostReg 0x00 = .cmd ∧ hostReg 0x02 = .len ∧ hostReg 0x12 = .pos 2 ∧ hostReg 0x14 = .acc 0 ∧ hostReg 0x1A = .gyro 2 ∧
    hostReg 0x27 = .ctrl 7 ∧ (hostReg 0x7F = .buf 63 ∧ Memory.wf (holding walk 11 5).buf) ∧
    hostReg 0x01 = .status ∧ hostReg 0x03 = .cur ∧ hostReg 0x04 = .rval ∧ hostReg 0xFF = .reserved := by decide
theorem witness_HostReadHasNoSideEffect :
    ({ holding walk 11 5 with script := [.read 0x40] } : State).script = .read 0x40 :: [] ∧ hostReg 0x40 = .buf 0 ∧
    hostReg 0x00 = .cmd ∧ hostReg 0x28 = .reserved ∧ hostReg 0x01 = .status ∧ hostReg 0x02 = .len ∧ hostReg 0x03 = .cur ∧
    hostReg 0x04 = .rval ∧ hostReg 0x10 = .pos 0 ∧ hostReg 0x16 = .acc 2 ∧ hostReg 0x18 = .gyro 0 ∧
    hostReg 0x20 = .ctrl 0 := by decide
/-- A full report over an older one, and an empty one. -/
theorem witness_LoadDeliversReport :
    (Memory.wf (holding walk 11 5).buf ∧ headset.length ≤ 64 ∧
      ({ holding walk 11 5 with script := (ScriptLine.load headset).actions } : State).script =
        (ScriptLine.load headset).actions) ∧
    (([] : List Byte).length ≤ 64 ∧ ({ holding walk 11 5 with script := [.write 0x02 0] } : State).script =
        (ScriptLine.load []).actions) := by decide
theorem witness_PseudoCommandsExpand :
    (holding walk 11 5).script = [] ∧ 255 < 256 ∧ Instr.decCtrl.decoder ∧ Instr.decPos.decoder :=
  ⟨rfl, by decide, by simp [Instr.decoder], by simp [Instr.decoder]⟩
theorem witness_StepTakesOneAction :
    ∃ t, step { holding walk 11 5 with script := [.write 0x02 200, .read 0x02] } = .next t ∧ t.script = [.read 0x02] :=
  ⟨{ holding walk 64 0 with script := [.read 0x02] }, next_of_afterStep (by decide), rfl⟩
theorem witness_IdleStepWaits : (holding walk 11 5).script = [] := rfl
theorem witness_ResetSetsControlRegisters :
    ({ holding walk 11 5 with
      script := [.reset ⟨Vector.replicate 64 0xA5, #v[1, 2, 3], #v[4, 5, 6], #v[7, 8, 9], Vector.replicate 8 0xFF⟩] } :
        State).script =
      .reset ⟨Vector.replicate 64 0xA5, #v[1, 2, 3], #v[4, 5, 6], #v[7, 8, 9], Vector.replicate 8 0xFF⟩ :: [] := by decide

/-! ### Witnesses: the invariant -/

/-- The invariant at its bounds: `CUR` = `LEN` = 64, `STATUS` = 3, a full buffer, and a command to come. -/
theorem witness_InvariantStepCompletes :
    State.Inv { holding headset 64 64 with status := 3, script := [commandAction 0x0800] } :=
  ⟨by decide, by decide, by decide, by decide⟩
theorem witness_StepKeepsInvariant :
    State.Inv { holding headset 64 64 with status := 3, script := [commandAction 0x0800] } ∧
    ∃ t, step { holding headset 64 64 with status := 3, script := [commandAction 0x0800] } = .next t :=
  ⟨⟨by decide, by decide, by decide, by decide⟩, { holding headset 64 64 with status := 2 },
    next_of_afterStep (by decide)⟩

end Sys2Proof.Machine.Tests
end

/-! What a command reads (10_state.md R42). Two states with the same inputs take the same branch of a command, and each
named update then writes both alike, because the value written is computed from the inputs. -/

namespace Sys2Proof.Machine

/-! ### What two states with the same inputs agree on -/

section
variable {s s' : State}

theorem SameInputs.cursor_eq (h : SameInputs s s') : cursor s = cursor s' := congrArg BitVec.toNat h.cur_eq

theorem SameInputs.lengthNeeded_eq (h : SameInputs s s') (i : Instr) : lengthNeeded i s = lengthNeeded i s' := by
  cases i <;> simp only [lengthNeeded, h.cur_eq]

theorem SameInputs.gateOk_eq (h : SameInputs s s') (hl : 2 ≤ s.len.toNat) : gateOk s.buf = gateOk s'.buf := by
  unfold gateOk
  rw [h.byte_eq 0 (by omega), h.byte_eq 1 (by omega)]

theorem SameInputs.memRead2_eq (h : SameInputs s s') {a : Nat} (hl : a + 2 ≤ s.len.toNat) :
    memRead2 s.buf a = memRead2 s'.buf a :=
  memRead2_congr fun i _ => h.byte_eq (a + i) (by omega)

theorem SameInputs.memRead4_eq (h : SameInputs s s') {a : Nat} (hl : a + 4 ≤ s.len.toNat) :
    memRead4 s.buf a = memRead4 s'.buf a :=
  memRead4_congr fun i _ => h.byte_eq (a + i) (by omega)

theorem SameInputs.fieldVec3_eq (h : SameInputs s s') {a : Nat} (hl : a + 6 ≤ s.len.toNat) :
    fieldVec3 s.buf a = fieldVec3 s'.buf a :=
  fieldVec3_congr fun i _ => h.byte_eq (a + i) (by omega)

theorem SameInputs.fieldControls_eq (h : SameInputs s s') (hl : 21 ≤ s.len.toNat) :
    fieldControls s.buf = fieldControls s'.buf :=
  fieldControls_congr (h.byte_eq 17 (by omega)) (h.byte_eq 19 (by omega)) (h.byte_eq 20 (by omega))

theorem SameInputs.loadBlock_eq (h : SameInputs s s') (hl : 61 ≤ s.len.toNat) :
    loadBlock s.buf = loadBlock s'.buf :=
  loadBlock_congr fun a _ _ => h.byte_eq a (by omega)

end

/-- Every offset of the encrypted sub-range is a byte of one of its fifteen words (30_encoding.md R89). -/
theorem exists_cryptWordOffset {a : Nat} (h1 : 1 ≤ a) (h61 : a < 61) :
    ∃ (i : Fin 15) (k : Nat), k < 4 ∧ a = cryptWordOffset i + k := by
  refine ⟨⟨(a - 1) / 4, by omega⟩, (a - 1) % 4, Nat.mod_lt _ (by decide), ?_⟩
  simp only [cryptWordOffset, Config.cryptOffset_eq]
  omega

/-- A byte that two buffers share is still shared after the same block is written back to both. -/
theorem read_storeBlock_congr (w : Block) {m n : Memory} (hm : Memory.wf m) (hn : Memory.wf n) {a : Nat}
    (h : Memory.read m a = Memory.read n a) : Memory.read (storeBlock w m) a = Memory.read (storeBlock w n) a := by
  by_cases ha : 1 ≤ a ∧ a < 61
  · obtain ⟨i, k, hk, rfl⟩ := exists_cryptWordOffset ha.1 ha.2
    rw [read_storeBlock_inside w hm i hk, read_storeBlock_inside w hn i hk]
  · have hout : a < 1 ∨ 61 ≤ a := by omega
    rw [read_storeBlock_outside w m hout, read_storeBlock_outside w n hout, h]

/-! ### Two states written alike -/

/-- From `s` to `t` and from `s'` to `t'` the same was written: `t` and `t'` have the same inputs, and each output
register either holds one value in both or is left alone in both. -/
structure WrittenAlike (s s' t t' : State) : Prop where
  inputs : SameInputs t t'
  rval : t.rval = t'.rval ∨ t.rval = s.rval ∧ t'.rval = s'.rval
  pos : t.pos = t'.pos ∨ t.pos = s.pos ∧ t'.pos = s'.pos
  motion : t.acc = t'.acc ∧ t.gyro = t'.gyro ∨ t.acc = s.acc ∧ t'.acc = s'.acc ∧ t.gyro = s.gyro ∧ t'.gyro = s'.gyro
  ctrl : t.ctrl = t'.ctrl ∨ t.ctrl = s.ctrl ∧ t'.ctrl = s'.ctrl

theorem SameInputs.writtenAlike {s s' : State} (h : SameInputs s s') : WrittenAlike s s' s s' :=
  ⟨h, .inr ⟨rfl, rfl⟩, .inr ⟨rfl, rfl⟩, .inr ⟨rfl, rfl, rfl, rfl⟩, .inr ⟨rfl, rfl⟩⟩

/-! Each named update, made with the same value on both sides, keeps the two states written alike. -/

section
variable {s s' t t' : State}

theorem WrittenAlike.raise (h : WrittenAlike s s' t t') (r : ResultCode) :
    WrittenAlike s s' (raise r t) (raise r t') :=
  ⟨⟨h.inputs.len_eq, h.inputs.cur_eq, h.inputs.byte_eq⟩, h.rval, h.pos, h.motion, h.ctrl⟩

theorem WrittenAlike.done (h : WrittenAlike s s' t t') : WrittenAlike s s' (done t) (done t') := h.raise .ok

theorem WrittenAlike.setCursor (h : WrittenAlike s s' t t') (n : Nat) :
    WrittenAlike s s' (setCursor n t) (setCursor n t') :=
  ⟨⟨h.inputs.len_eq, rfl, h.inputs.byte_eq⟩, h.rval, h.pos, h.motion, h.ctrl⟩

theorem WrittenAlike.setReadValue (h : WrittenAlike s s' t t') (v : Word) :
    WrittenAlike s s' (setReadValue v t) (setReadValue v t') :=
  ⟨⟨h.inputs.len_eq, h.inputs.cur_eq, h.inputs.byte_eq⟩, .inl rfl, h.pos, h.motion, h.ctrl⟩

theorem WrittenAlike.setPosition (h : WrittenAlike s s' t t') (p : Vec3) :
    WrittenAlike s s' (setPosition p t) (setPosition p t') :=
  ⟨⟨h.inputs.len_eq, h.inputs.cur_eq, h.inputs.byte_eq⟩, h.rval, .inl rfl, h.motion, h.ctrl⟩

theorem WrittenAlike.setMotion (h : WrittenAlike s s' t t') (a g : Vec3) :
    WrittenAlike s s' (setMotion a g t) (setMotion a g t') :=
  ⟨⟨h.inputs.len_eq, h.inputs.cur_eq, h.inputs.byte_eq⟩, h.rval, h.pos, .inl ⟨rfl, rfl⟩, h.ctrl⟩

theorem WrittenAlike.setControls (h : WrittenAlike s s' t t') (c : Vector Byte 8) :
    WrittenAlike s s' (setControls c t) (setControls c t') :=
  ⟨⟨h.inputs.len_eq, h.inputs.cur_eq, h.inputs.byte_eq⟩, h.rval, h.pos, h.motion, .inl rfl⟩

/-- The two buffers written need not be equal: only their valid bytes have to be. -/
theorem WrittenAlike.setBuffer (h : WrittenAlike s s' t t') {m m' : Memory}
    (hm : ∀ a, a < t.len.toNat → Memory.read m a = Memory.read m' a) :
    WrittenAlike s s' (setBuffer m t) (setBuffer m' t') :=
  ⟨⟨h.inputs.len_eq, h.inputs.cur_eq, hm⟩, h.rval, h.pos, h.motion, h.ctrl⟩

end

/-! ### The commands -/

/-- A command whose length is met computes all it writes from the inputs. -/
theorem effect_writtenAlike (i : Instr) {s s' : State} (hm : Memory.wf s.buf) (hm' : Memory.wf s'.buf)
    (h : SameInputs s s') (hl : lengthNeeded i s ≤ s.len.toNat) : WrittenAlike s s' (effect i s) (effect i s') := by
  have alike := h.writtenAlike
  cases i with
  | setcur n => exact alike.setCursor n
  | skip n =>
    simp only [effect, ← h.cursor_eq]
    exact alike.setCursor _
  | rd8 =>
    simp only [effect, ← h.cursor_eq, ← h.byte_eq (cursor s) hl]
    exact (alike.setReadValue _).setCursor _
  | rd16 =>
    simp only [effect, ← h.cursor_eq, ← h.memRead2_eq (a := cursor s) hl]
    exact (alike.setReadValue _).setCursor _
  | rd32 =>
    simp only [effect, ← h.cursor_eq, ← h.memRead4_eq (a := cursor s) hl]
    exact (alike.setReadValue _).setCursor _
  | decrypt =>
    simp only [effect, ← h.loadBlock_eq hl]
    exact alike.setBuffer fun a ha => read_storeBlock_congr _ hm hm' (h.byte_eq a ha)
  | decPos =>
    simp only [effect, ← h.cursor_eq, ← h.fieldVec3_eq (a := cursor s) hl]
    exact alike.setPosition _
  | decOri =>
    have hlen : cursor s + 18 ≤ s.len.toNat := hl
    simp only [effect, ← h.cursor_eq, ← h.fieldVec3_eq (a := cursor s) (by omega),
      ← h.fieldVec3_eq (a := cursor s + 12) (by omega)]
    exact alike.setMotion _ _
  | decCtrl =>
    simp only [effect, ← h.fieldControls_eq hl]
    exact alike.setControls _
  | decHmd =>
    have hlen : 49 ≤ s.len.toNat := hl
    simp only [effect, ← h.fieldVec3_eq (a := 31) (by omega), ← h.fieldVec3_eq (a := 43) (by omega)]
    exact alike.setMotion _ _
  | decBase => exact alike

/-- The gate is tested only after a length bound that covers the tag (42_report_decoders.md R151). -/
theorem two_le_lengthNeeded_of_gated {i : Instr} (hi : i.gated) (s : State) : 2 ≤ lengthNeeded i s := by
  rcases hi with rfl | rfl <;> simp [lengthNeeded]

/-- A command that completes in one of two states with the same inputs completes in the other, with the same result and
the same writes. -/
theorem exec_writtenAlike {i : Instr} {s s' t : State} (hm : Memory.wf s.buf) (hm' : Memory.wf s'.buf)
    (h : SameInputs s s') (ht : exec i s = .next t) :
    ∃ t', exec i s' = .next t' ∧ t.status = t'.status ∧ WrittenAlike s s' t t' := by
  have hn := h.lengthNeeded_eq i
  have hlen := congrArg BitVec.toNat h.len_eq
  have gate (hi : i.gated) (hl : lengthNeeded i s ≤ s.len.toNat) : gateOk s.buf = gateOk s'.buf :=
    h.gateOk_eq ((two_le_lengthNeeded_of_gated hi s).trans hl)
  rcases exec_next_cases ht with ⟨short, rfl⟩ | ⟨long, hi, tag, rfl⟩ | ⟨long, tag, cap, rfl⟩
  · exact ⟨_, exec_truncated (by omega), rfl, h.writtenAlike.raise _⟩
  · exact ⟨_, exec_unknownVersion hi (by omega) (gate hi long ▸ tag), rfl, h.writtenAlike.raise _⟩
  · exact ⟨_, exec_completes (by omega) (hn ▸ cap) fun hi => gate hi long ▸ tag hi, rfl,
      (effect_writtenAlike i hm hm' h long).done⟩

/-- The same for a command word, which may encode no command. -/
theorem runCommand_writtenAlike {w : CmdWord} {s s' t : State} (hm : Memory.wf s.buf) (hm' : Memory.wf s'.buf)
    (h : SameInputs s s') (ht : runCommand w s = .next t) :
    ∃ t', runCommand w s' = .next t' ∧ t.status = t'.status ∧ WrittenAlike s s' t t' := by
  rcases runCommand_next ht with ⟨i, hw, hi⟩ | ⟨⟨e, hw⟩, rfl⟩
  · rw [runCommand_ok hw]
    exact exec_writtenAlike hm hm' h hi
  · exact ⟨_, runCommand_error hw s', rfl, h.writtenAlike.raise _⟩

/-- Settles O37: a command word acts on two states with the same inputs by the same branch and the same writes. -/
theorem commandsReadOnlyTheirInputs : Obligations.CommandsReadOnlyTheirInputs := by
  intro w s s' t hm hm' h ht
  obtain ⟨t', ht', status, alike⟩ := runCommand_writtenAlike hm hm' h ht
  exact ⟨t', ht', status, alike.inputs, alike.rval, alike.pos, alike.motion, alike.ctrl⟩

end Sys2Proof.Machine

/-! The encoding (30_encoding.md R75 to R78). The legal words are the words of the well-formed commands, each of one
command only, so they can be listed, and counted, as commands. -/

namespace Sys2Proof

/-! ### The two fields of a word -/

theorem cmdOp_append_cmdImm8 (w : CmdWord) : cmdOp w ++ cmdImm8 w = w := by
  rw [cmdOp, cmdImm8, BitVec.extractLsb'_append_extractLsb'_eq_extractLsb' (by decide), BitVec.extractLsb'_eq_self]

theorem cmdOp_toNat (w : CmdWord) : (cmdOp w).toNat = w.toNat / 256 := by
  have := w.isLt
  simp only [cmdOp, BitVec.extractLsb'_toNat, Nat.shiftRight_eq_div_pow]
  omega

theorem cmdImm8_toNat (w : CmdWord) : (cmdImm8 w).toNat = w.toNat % 256 := by
  simp [cmdImm8]

/-! ### Decoding inverts encoding -/

/-- The nine commands without operand (R76). -/
def operandlessCommands : List Instr :=
  [.rd8, .rd16, .rd32, .decrypt, .decPos, .decOri, .decCtrl, .decHmd, .decBase]

/-- Each branch of the opcode map answers the command of that opcode. -/
theorem of_noOperandCommand {op : Byte} {i : Instr} (h : noOperandCommand op = some i) :
    i ∈ operandlessCommands ∧ opcodeOf i = op := by
  unfold noOperandCommand at h
  split_ifs at h <;> cases h <;> exact ⟨by decide, Eq.symm ‹op = _›⟩

theorem operandless_wellFormed {i : Instr} (h : i ∈ operandlessCommands) : i.WellFormed := by
  revert i; decide

theorem operandless_imm8Of {i : Instr} (h : i ∈ operandlessCommands) : imm8Of i = 0 := by
  revert i; decide

theorem encode_eq_iff {i : Instr} {w : CmdWord} : encode i = w ↔ opcodeOf i = cmdOp w ∧ imm8Of i = cmdImm8 w := by
  constructor
  · rintro rfl
    obtain ⟨hop, himm⟩ := Laws.fields_of_encode i
    exact ⟨hop.symm, himm.symm⟩
  · rintro ⟨hop, himm⟩
    rw [encode, hop, himm, cmdOp_append_cmdImm8]

theorem decode_encode {i : Instr} (h : i.WellFormed) : decode (encode i) = .ok i := by
  obtain ⟨hop, himm⟩ := Laws.fields_of_encode i
  unfold decode
  rw [hop, himm]
  cases i with
  | setcur n | skip n =>
    have hn : n < 256 := of_decide_eq_true h
    simp [opcodeOf, imm8Of, Nat.mod_eq_of_lt hn]
  | rd8 | rd16 | rd32 | decrypt | decPos | decOri | decCtrl | decHmd | decBase => rfl

theorem decode_setcur {w : CmdWord} (h : cmdOp w = 0x01) : decode w = .ok (.setcur (cmdImm8 w).toNat) := if_pos h

theorem decode_skip {w : CmdWord} (h : cmdOp w = 0x02) : decode w = .ok (.skip (cmdImm8 w).toNat) := by
  rw [decode, if_neg (by rw [h]; decide), if_pos h]

/-- The three ways a word decodes. -/
theorem decode_ok_cases {w : CmdWord} {i : Instr} (h : decode w = .ok i) :
    (cmdOp w = 0x01 ∧ i = .setcur (cmdImm8 w).toNat) ∨ (cmdOp w = 0x02 ∧ i = .skip (cmdImm8 w).toNat) ∨
    (noOperandCommand (cmdOp w) = some i ∧ cmdImm8 w = 0) := by
  by_cases hset : cmdOp w = 0x01
  · rw [decode_setcur hset] at h
    exact .inl ⟨hset, (Except.ok.inj h).symm⟩
  by_cases hskip : cmdOp w = 0x02
  · rw [decode_skip hskip] at h
    exact .inr (.inl ⟨hskip, (Except.ok.inj h).symm⟩)
  rw [decode, if_neg hset, if_neg hskip] at h
  split at h
  next => cases h
  next j hj =>
    split at h <;> cases h
    exact .inr (.inr ⟨hj, ‹_›⟩)

theorem encode_of_decode {w : CmdWord} {i : Instr} (h : decode w = .ok i) : i.WellFormed ∧ encode i = w := by
  rw [encode_eq_iff]
  rcases decode_ok_cases h with ⟨hop, rfl⟩ | ⟨hop, rfl⟩ | ⟨hcmd, himm⟩
  · exact ⟨decide_eq_true (cmdImm8 w).isLt, hop.symm, by simp [imm8Of]⟩
  · exact ⟨decide_eq_true (cmdImm8 w).isLt, hop.symm, by simp [imm8Of]⟩
  · obtain ⟨mem, hop⟩ := of_noOperandCommand hcmd
    exact ⟨operandless_wellFormed mem, hop, (operandless_imm8Of mem).trans himm.symm⟩

/-- The decoder answers `i` on the word of `i` and on no other word (R91). -/
theorem decode_eq_ok_iff {w : CmdWord} {i : Instr} : decode w = .ok i ↔ i.WellFormed ∧ encode i = w :=
  ⟨encode_of_decode, by rintro ⟨wf, rfl⟩; exact decode_encode wf⟩

theorem Instr.wellFormed_of_decoder {c : Instr} (h : c.decoder) : c.WellFormed := by
  rcases h with rfl | rfl | rfl | rfl | rfl <;> rfl

/-! ### The legal words (R78) -/

/-- Every command of R76, with each of its operands. -/
def commands : List Instr := (List.range 256).map .setcur ++ (List.range 256).map .skip ++ operandlessCommands

theorem mem_commands {i : Instr} : i ∈ commands ↔ i.WellFormed := by
  cases i <;> simp [commands, operandlessCommands, Instr.WellFormed, Instr.wellFormed]

theorem commands_nodup : commands.Nodup := by
  have setcurs : ((List.range 256).map Instr.setcur).Nodup := List.nodup_range.map fun _ _ => Instr.setcur.inj
  have skips : ((List.range 256).map Instr.skip).Nodup := List.nodup_range.map fun _ _ => Instr.skip.inj
  refine (setcurs.append skips ?_).append (by decide) ?_
  · simp [List.Disjoint]
  · simp [List.disjoint_left, operandlessCommands, or_imp, forall_and]

theorem commands_length : commands.length = 521 := by simp [commands, operandlessCommands]

/-- The words of the commands, each once. -/
def legalWords : List CmdWord := commands.map encode

theorem mem_legalWords {w : CmdWord} : w ∈ legalWords ↔ ∃ i, decode w = .ok i := by
  simp only [legalWords, List.mem_map, mem_commands, decode_eq_ok_iff]

theorem legalWords_nodup : legalWords.Nodup :=
  commands_nodup.map_on fun i hi j hj hij => by
    have hdec := decode_encode (mem_commands.1 hi)
    rw [hij, decode_encode (mem_commands.1 hj)] at hdec
    exact (Except.ok.inj hdec).symm

theorem legalWords_length : legalWords.length = 521 := by rw [legalWords, List.length_map, commands_length]

/-- R78 in the terms of the two fields. -/
theorem decodes_iff_fields (w : CmdWord) : (∃ i, decode w = .ok i) ↔
    cmdOp w = 0x01 ∨ cmdOp w = 0x02 ∨ cmdOp w ∈ operandlessCommands.map opcodeOf ∧ cmdImm8 w = 0 := by
  constructor
  · rintro ⟨i, hi⟩
    obtain ⟨-, hw⟩ := encode_of_decode hi
    obtain ⟨hop, himm⟩ := encode_eq_iff.1 hw
    rw [← hop, ← himm]
    cases i with
    | setcur n => exact .inl rfl
    | skip n => exact .inr (.inl rfl)
    | rd8 | rd16 | rd32 | decrypt | decPos | decOri | decCtrl | decHmd | decBase =>
      exact .inr (.inr ⟨by decide, rfl⟩)
  · rintro (hop | hop | ⟨hop, himm⟩)
    · exact ⟨_, decode_setcur hop⟩
    · exact ⟨_, decode_skip hop⟩
    · obtain ⟨i, mem, hop⟩ := List.mem_map.1 hop
      have himm8 : imm8Of i = cmdImm8 w := (operandless_imm8Of mem).trans himm.symm
      exact ⟨i, decode_eq_ok_iff.2 ⟨operandless_wellFormed mem, encode_eq_iff.2 ⟨hop, himm8⟩⟩⟩

theorem mem_operandless_opcodes (op : Byte) : op ∈ operandlessCommands.map opcodeOf ↔
    op.toNat ∈ [0x08, 0x09, 0x0A, 0x10, 0x20, 0x21, 0x22, 0x23, 0x24] :=
  (List.mem_map_of_injective fun _ _ => BitVec.eq_of_toNat_eq).symm

theorem decodes_iff_toNat (w : CmdWord) : (∃ i, decode w = .ok i) ↔
    w.toNat / 256 = 0x01 ∨ w.toNat / 256 = 0x02 ∨
      (w.toNat / 256 ∈ [0x08, 0x09, 0x0A, 0x10, 0x20, 0x21, 0x22, 0x23, 0x24] ∧ w.toNat % 256 = 0) := by
  rw [decodes_iff_fields, mem_operandless_opcodes, ← cmdOp_toNat, ← cmdImm8_toNat]
  simp only [← BitVec.toNat_inj]
  rfl

end Sys2Proof

namespace Sys2Proof.Machine

/-! ### One step with a command word to come -/

theorem popAction_eq {s : State} {a : HostAction} {rest : List HostAction} (h : s.script = a :: rest) :
    popAction s = { s with script := rest } := by
  rw [popAction, h, List.tail_cons]

theorem step_commandAction {s : State} {w : CmdWord} {rest : List HostAction} (h : s.script = commandAction w :: rest) :
    step s = runCommand w { s with script := rest } := by
  rw [step_action h, act_commandAction, popAction_eq h]

/-- Issuing a command runs it (R80). -/
theorem step_issue {i : Instr} (wf : i.WellFormed) {s : State} {rest : List HostAction}
    (h : s.script = issue i :: rest) : step s = exec i { s with script := rest } :=
  (step_commandAction h).trans (runCommand_ok (decode_encode wf) _)

/-- Settles O4, by listing the legal words as the words of the well-formed commands. -/
theorem legalWordsAreR78 : Obligations.LegalWordsAreR78 := by
  refine ⟨decodes_iff_toNat, ⟨legalWords, legalWords_nodup, legalWords_length, fun _ => mem_legalWords⟩, ?_⟩
  intro w s rest illegal script
  rw [step_commandAction script]
  cases hw : decode w with
  | ok i => exact absurd ⟨i, hw⟩ illegal
  | error e => exact runCommand_error hw _

/-! ### Two commands, one after the other (R81) -/

theorem exec_script {i : Instr} {s t : State} (h : exec i s = .next t) : t.script = s.script := by
  rcases exec_next_cases h with ⟨-, rfl⟩ | ⟨-, -, -, rfl⟩ | ⟨-, -, -, rfl⟩ <;> simp

/-- A command whose bound lies in the address space answers a next state, raising or not. -/
theorem exec_answers {i : Instr} {s : State} (hc : touchesBuffer i → lengthNeeded i s ≤ 64) :
    ∃ t, exec i s = .next t := by
  rcases lt_or_ge s.len.toNat (lengthNeeded i s) with short | long
  · exact ⟨_, exec_truncated short⟩
  · by_cases gate : i.gated → gateOk s.buf = true
    · exact ⟨_, exec_completes long hc gate⟩
    · obtain ⟨hi, tag⟩ := Classical.not_imp.1 gate
      exact ⟨_, exec_unknownVersion hi long (Bool.eq_false_of_not_eq_true tag)⟩

theorem withScript_eq_self {s : State} {l : List HostAction} (h : s.script = l) : { s with script := l } = s := by
  rw [← h]

theorem run_one_issue {i : Instr} (wf : i.WellFormed) {s : State} (h : s.script = []) :
    run 1 { s with script := [issue i] } = exec i s := by
  rw [run_one, step_issue wf rfl, withScript_eq_self h]

/-- The second command runs in the state the first left, whatever the first's result. -/
theorem run_two_issues {i j : Instr} (wfi : i.WellFormed) (wfj : j.WellFormed) {s a : State} (h : s.script = [])
    (ha : exec i s = .next a) : run 2 { s with script := [issue i, issue j] } = exec j a := by
  have first : step { s with script := [issue i, issue j] } = .next { a with script := [issue j] } := by
    rw [step_issue wfi rfl]
    exact exec_withScript (s := s) [issue j] ha
  rw [run_of_step first, run_one_issue wfj ((exec_script ha).trans h)]

/-- Settles O45: the first command of an expansion always answers a next state, and the second runs in it. -/
theorem pseudoCommandsExpand : Obligations.PseudoCommandsExpand := by
  intro s idle
  refine ⟨run_one_issue rfl idle, fun n hn => ?_, fun c hc => ?_⟩
  · have wf : (Instr.setcur n).WellFormed := decide_eq_true hn
    obtain ⟨a, ha⟩ := exec_answers (i := .setcur n) (s := s) fun touches => absurd rfl (touches.1 n)
    exact ⟨a, ha, run_two_issues wf rfl idle ha, run_two_issues wf rfl idle ha⟩
  · obtain ⟨a, ha⟩ := exec_answers (i := .decrypt) (s := s) fun _ => show 61 ≤ 64 by decide
    exact ⟨a, ha, run_two_issues rfl (Instr.wellFormed_of_decoder hc) idle ha⟩

end Sys2Proof.Machine

/-! The field reader (40_field_reader.md). SETCUR and SKIP are one operation, the move of the cursor; RD8, RD16 and RD32
are one operation, the read of `n` bytes, and differ in the number the bytes stand for. -/

namespace Sys2Proof

/-- A byte put below a value is the next digit to base 256. -/
theorem toNat_append_byte {n : Nat} (x : BitVec n) (b : Byte) : (x ++ b).toNat = x.toNat * 256 + b.toNat := by
  rw [BitVec.toNat_append, ← Nat.shiftLeft_add_eq_or_of_lt b.isLt, Nat.shiftLeft_eq]

/-- The word of a command with `op` in bits 15..8 and `imm8` in bits 7..0, as a sum (30_encoding.md R75). -/
theorem encode_eq_ofNat (i : Instr) : encode i = BitVec.ofNat 16 ((opcodeOf i).toNat * 256 + (imm8Of i).toNat) := by
  rw [← toNat_append_byte, BitVec.ofNat_toNat, BitVec.setWidth_eq, encode]

theorem encode_setcur (n : Byte) : encode (.setcur n.toNat) = BitVec.ofNat 16 (0x0100 + n.toNat) := by
  simp [encode_eq_ofNat, opcodeOf, imm8Of]

theorem encode_skip (n : Byte) : encode (.skip n.toNat) = BitVec.ofNat 16 (0x0200 + n.toNat) := by
  simp [encode_eq_ofNat, opcodeOf, imm8Of]

end Sys2Proof

namespace Sys2Proof.Machine

/-! ### Little-endian values (20_memory.md R51, R52) -/

@[simp] theorem leValue_zero (m : Memory) (a : Nat) : leValue m a 0 = 0 := rfl

/-- The first byte is the lowest digit to base 256. -/
theorem leValue_succ (m : Memory) (a n : Nat) :
    leValue m a (n + 1) = leValue m (a + 1) n * 256 + (Memory.read m a).toNat := by
  simp only [leValue, Finset.sum_range_succ', Finset.sum_mul]
  congr 1
  · refine Finset.sum_congr rfl fun i _ => ?_
    rw [Nat.add_right_comm a 1 i, Nat.add_assoc, Nat.mul_assoc, Nat.mul_add, Nat.pow_add]
  · rw [Nat.add_zero, Nat.mul_zero, Nat.pow_zero, Nat.mul_one]

theorem memRead2_toNat (m : Memory) (a : Nat) : (memRead2 m a).toNat = leValue m a 2 := by
  simp only [memRead2, toNat_append_byte, leValue_succ, leValue_zero, Nat.zero_mul, Nat.zero_add]

theorem memRead4_toNat (m : Memory) (a : Nat) : (memRead4 m a).toNat = leValue m a 4 := by
  simp only [memRead4, toNat_append_byte, leValue_succ, leValue_zero, Nat.zero_mul, Nat.zero_add, Nat.add_assoc,
    Nat.reduceAdd]

theorem memRead4_eq_ofNat (m : Memory) (a : Nat) : memRead4 m a = BitVec.ofNat 32 (leValue m a 4) := by
  rw [← memRead4_toNat, BitVec.ofNat_toNat, BitVec.setWidth_eq]

/-! ### The widenings (00_scope.md R9) -/

theorem zext32_eq_ofNat (b : Byte) : zext32 b = BitVec.ofNat 32 b.toNat := (BitVec.ofNat_toNat 32 b).symm

/-- The signed reading of R9 is the two's-complement number. -/
theorem sint16_eq_toInt (v : Half) : sint16 v = v.toInt := by
  have h : v.toNat < 0x8000 ↔ 2 * v.toNat < 2 ^ 16 := by omega
  simp only [sint16, h, BitVec.toInt_eq_toNat_cond]
  rfl

theorem sext32_eq_ofInt (v : Half) : sext32 v = BitVec.ofInt 32 (sint16 v) := by
  rw [sint16_eq_toInt, sext32, BitVec.signExtend]

/-! ### The two shared operations, completed -/

/-- Moving the cursor to an offset that fits the register writes that offset. -/
theorem setCursor_toNat (c : Byte) (s : State) : setCursor c.toNat s = { s with cur := c } := by
  rw [setCursor, BitVec.ofNat_toNat, BitVec.setWidth_eq]

/-- A move of the cursor that is not beyond `LEN` (R101, R102). -/
theorem moveCursor_completes {n : Nat} {c : Byte} {s : State} (hc : c.toNat = n) (hlen : c.toNat ≤ s.len.toNat) :
    moveCursor n s = .next { s with cur := c, status := 0 } := by
  rw [← hc, moveCursor_within hlen, setCursor_toNat]
  rfl

/-- A read of `n` bytes that ends within `LEN`, with the cursor after it at `c` (R100). -/
theorem fieldRead_completes {n : Nat} {c : Byte} {s : State} (hc : c.toNat = s.cur.toNat + n)
    (hlen : c.toNat ≤ s.len.toNat) (hcap : c.toNat ≤ 64) (v : Word) :
    fieldRead n v s = .next { s with rval := v, cur := c, status := 0 } := by
  have hcur : cursor s + n = c.toNat := hc.symm
  rw [fieldRead, hcur, withBound_enough hlen hcap, setCursor_toNat]
  rfl

/-! ### The five commands -/

theorem exec_setcur (n : Nat) (s : State) : exec (.setcur n) s = moveCursor n s := rfl

theorem exec_skip (n : Nat) (s : State) : exec (.skip n) s = moveCursor (s.cur.toNat + n) s := rfl

theorem exec_rd8 (s : State) :
    exec .rd8 s = fieldRead 1 (BitVec.ofNat 32 (Memory.read s.buf s.cur.toNat).toNat) s := by
  rw [← zext32_eq_ofNat]
  rfl

theorem exec_rd16 (s : State) :
    exec .rd16 s = fieldRead 2 (BitVec.ofInt 32 (sint16 (memRead2 s.buf s.cur.toNat))) s := by
  rw [← sext32_eq_ofInt]
  rfl

theorem exec_rd32 (s : State) : exec .rd32 s = fieldRead 4 (BitVec.ofNat 32 (leValue s.buf s.cur.toNat 4)) s := by
  rw [← memRead4_eq_ofNat]
  rfl

/-- Settles O5: SETCUR moves the cursor to its operand. -/
theorem setcurLoadsCursor : Obligations.SetcurLoadsCursor := by
  refine ⟨encode_setcur, fun n s hlen => ?_, fun n s beyond => exec_truncated beyond⟩
  rw [exec_setcur, moveCursor_completes rfl hlen]

/-- Settles O6: SKIP moves the cursor to the unwrapped sum. -/
theorem skipAdvancesCursor : Obligations.SkipAdvancesCursor := by
  refine ⟨encode_skip, fun n s c hc hlen => ?_, fun n s beyond => exec_truncated beyond⟩
  rw [exec_skip, moveCursor_completes hc hlen]

/-- Settles O7: RD8 is the read of one byte, zero-extended. -/
theorem rd8ReadsByte : Obligations.Rd8ReadsByte := by
  refine ⟨rfl, fun s c hc hlen hcap => ?_, fun s short => exec_truncated short⟩
  rw [exec_rd8, fieldRead_completes hc hlen hcap]

/-- Settles O8: RD16 is the read of two bytes; the sum of R52 is their unsigned number, which R9 reads as signed. -/
theorem rd16ReadsSigned : Obligations.Rd16ReadsSigned := by
  refine ⟨rfl, fun s c v hc hlen hcap hv => ?_, fun s short => exec_truncated short⟩
  rw [exec_rd16, fieldRead_completes hc hlen hcap, sint16, memRead2_toNat, ← hv]

/-- Settles O9: RD32 is the read of four bytes, whose number is the sum of R52. -/
theorem rd32ReadsWord : Obligations.Rd32ReadsWord := by
  refine ⟨rfl, fun s c hc hlen hcap => ?_, fun s short => exec_truncated short⟩
  rw [exec_rd32, fieldRead_completes hc hlen hcap]

end Sys2Proof.Machine

/-! The cipher engine (41_cipher_engine.md). DECRYPT is a load of the fifteen words, the block's map and the write-back.
A round takes the words in falling order, each once, so when word `p` has its turn the words above it hold their new
values and the words below it their old ones. -/

namespace Sys2Proof.Machine

/-! ### DECRYPT on the buffer (R121, R127, R128) -/

theorem done_setBuffer (m : Memory) (s : State) : done (setBuffer m s) = { s with buf := m, status := 0 } := rfl

/-- DECRYPT as an update of the state before, when the report is long enough. -/
theorem exec_decrypt {s : State} (hlen : 61 ≤ s.len.toNat) :
    exec .decrypt s = .next { s with buf := storeBlock (decryptBlock (loadBlock s.buf)) s.buf, status := 0 } := by
  have ungated : ¬ Instr.decrypt.gated := not_gated_of (by decide)
  rw [exec_completes (i := .decrypt) hlen (fun _ => show 61 ≤ 64 by decide) fun g => absurd g ungated, effect,
    done_setBuffer]

/-- The words loaded are the little-endian numbers of R52. -/
theorem loadBlock_eq_ofFn (m : Memory) :
    loadBlock m = Vector.ofFn fun j => BitVec.ofNat 32 (leValue m (1 + 4 * j) 4) := by
  simp only [loadBlock, memRead4_eq_ofNat, cryptWordOffset, Config.cryptOffset_eq]

/-- After the write-back of `w` the little-endian number at the place of word `i` is that word. -/
theorem leValue_storeBlock (w : Block) {m : Memory} (hm : Memory.wf m) (i : Fin 15) :
    leValue (storeBlock w m) (1 + 4 * i) 4 = w[i].toNat := by
  rw [← memRead4_toNat]
  exact congrArg BitVec.toNat (memRead4_storeWords w hm (List.nodup_finRange 15) (List.mem_finRange i))

/-- Settles O10: the write-back puts the decrypted words at their places and touches nothing outside the sub-range. -/
theorem decryptTransformsInPlace : Obligations.DecryptTransformsInPlace := by
  refine ⟨rfl, fun s wf hlen => ⟨_, exec_decrypt hlen, fun i => ?_, fun a => read_storeBlock_outside _ _⟩,
    fun s short => exec_truncated short⟩
  rw [leValue_storeBlock _ wf, loadBlock_eq_ofFn]

/-! ### The order of a round (R126) -/

/-- Updating the words of a list leaves every other word alone. -/
theorem decryptSteps_getElem_of_not_mem (sum : Word) (w : Block) {l : List (Fin 15)} {q : Fin 15} (h : q ∉ l) :
    (l.foldl (decryptStep sum) w)[q] = w[q] := by
  induction l generalizing w with
  | nil => rfl
  | cons p l ih =>
    obtain ⟨head, tail⟩ := List.ne_and_not_mem_of_not_mem_cons h
    rw [List.foldl_cons, ih _ tail, decryptStep_getElem_ne sum w head]

/-- The words of a round up to the turn of `p`, the turn of `p`, and the words after it. -/
theorem roundOrder_split (p : Fin 15) : ∃ above below : List (Fin 15),
    (List.finRange 15).reverse = above ++ p :: below ∧ (∀ q ∈ above, p < q) ∧ ∀ q ∈ below, q < p := by
  have falling : (List.finRange 15).reverse.Pairwise (· > ·) := List.pairwise_reverse.2 (List.pairwise_lt_finRange 15)
  obtain ⟨above, below, split⟩ := List.append_of_mem (List.mem_reverse.2 (List.mem_finRange p))
  rw [split, List.pairwise_append, List.pairwise_cons] at falling
  obtain ⟨-, ⟨hbelow, -⟩, habove⟩ := falling
  exact ⟨above, below, split, fun q hq => habove q hq p List.mem_cons_self, hbelow⟩

/-- At the turn of `p` the round has come to words `u` which are the round's result above `p` and still the old words
elsewhere; the update made from `u` is the value that word `p` keeps. -/
theorem decryptRound_at_turn (sum : Word) (w : Block) (p : Fin 15) : ∃ u : Block,
    (∀ q, p < q → u[q] = (decryptRound sum w)[q]) ∧ (∀ q, q ≤ p → u[q] = w[q]) ∧
    (decryptRound sum w)[p] = u[p] - mixAt sum u p := by
  obtain ⟨above, below, split, habove, hbelow⟩ := roundOrder_split p
  have turns : decryptRound sum w =
      below.foldl (decryptStep sum) (decryptStep sum (above.foldl (decryptStep sum) w) p) := by
    rw [decryptRound, split, List.foldl_append, List.foldl_cons]
  have kept {q : Fin 15} (hq : p ≤ q) : (decryptRound sum w)[q] =
      (decryptStep sum (above.foldl (decryptStep sum) w) p)[q] := by
    rw [turns, decryptSteps_getElem_of_not_mem sum _ fun mem => (hbelow q mem).not_ge hq]
  refine ⟨above.foldl (decryptStep sum) w, fun q hq => ?_, fun q hq => ?_, ?_⟩
  · rw [kept hq.le, decryptStep_getElem_ne sum _ hq.ne']
  · exact decryptSteps_getElem_of_not_mem sum w fun mem => (habove q mem).not_ge hq
  · rw [kept le_rfl, decryptStep_getElem_self]

/-- Settles O13: at the turn of a word, each of its two neighbours stands above it, and is new, or below it, and is old. -/
theorem roundUpdatesInOrder : Obligations.RoundUpdatesInOrder := by
  intro sum w w'
  refine ⟨?_, fun p h1 h13 => ?_, ?_⟩
  · obtain ⟨u, -, old, update⟩ := decryptRound_at_turn sum w 14
    rw [mixAt, old 14 le_rfl, old (14 - 1) (by decide), old (14 + 1) (by decide)] at update
    exact update
  · have hp : p < 15 := by omega
    have pred : (⟨p, hp⟩ - 1 : Fin 15).val = p - 1 :=
      Fin.val_sub_one_of_ne_zero (Fin.ne_of_val_ne (show p ≠ 0 by omega))
    have succ : (⟨p, hp⟩ + 1 : Fin 15).val = p + 1 := Fin.val_add_one_of_lt (Fin.lt_def.2 (show p < 14 by omega))
    obtain ⟨u, new, old, update⟩ := decryptRound_at_turn sum w ⟨p, hp⟩
    rw [mixAt, old ⟨p, hp⟩ le_rfl, old (⟨p, hp⟩ - 1) (Fin.le_def.2 (by omega)),
      new (⟨p, hp⟩ + 1) (Fin.lt_def.2 (by omega))] at update
    simpa only [Fin.getElem_fin, pred, succ] using update
  · obtain ⟨u, new, old, update⟩ := decryptRound_at_turn sum w 0
    rw [mixAt, old 0 le_rfl, new (0 - 1) (by decide), new (0 + 1) (by decide)] at update
    exact update

end Sys2Proof.Machine

/-! The report decoders (42_report_decoders.md). Each moves fields of the report into the output record, so its proof is
the general law of a command that completes, and what its fields are: the 16-bit fields are sums of R52, a button is a
binary digit of the mask. -/

namespace Sys2Proof.Machine

/-! ### The fields (30_encoding.md R83 to R86) -/

theorem memRead2_eq_ofNat (m : Memory) (a : Nat) : memRead2 m a = BitVec.ofNat 16 (leValue m a 2) := by
  rw [← memRead2_toNat, BitVec.ofNat_toNat, BitVec.setWidth_eq]

/-- Three 16-bit fields side by side (R83, R84) are the little-endian numbers of R52. -/
theorem fieldVec3_eq_ofFn (m : Memory) (a : Nat) :
    fieldVec3 m a = Vector.ofFn fun i => BitVec.ofNat 16 (leValue m (a + 2 * i) 2) := by
  simp only [fieldVec3, memRead2_eq_ofNat]
  rfl

/-- A button is a binary digit of the mask (R86, R156). -/
theorem buttonBit_eq_ofNat (mask : Byte) (i : Nat) : buttonBit mask i = BitVec.ofNat 8 (mask.toNat / 2 ^ i % 2) := by
  apply BitVec.eq_of_toNat_eq
  have hdigit : mask.toNat / 2 ^ i % 2 < 2 ^ 8 := (Nat.mod_lt _ two_pos).trans (by decide)
  rw [buttonBit, BitVec.toNat_and, BitVec.toNat_ushiftRight, Nat.shiftRight_eq_div_pow, BitVec.toNat_ofNat,
    Nat.mod_eq_of_lt hdigit]
  exact Nat.and_one_is_mod _

/-- The controller values (R85, R155): six digits of the byte at 17, then the bytes at 19 and 20. -/
theorem fieldControls_eq_ofFn (m : Memory) :
    fieldControls m = Vector.ofFn fun i =>
      if i.val < 6 then BitVec.ofNat 8 ((Memory.read m 17).toNat / 2 ^ i.val % 2)
      else if i.val = 6 then Memory.read m 19 else Memory.read m 20 := by
  simp only [fieldControls, buttonBit_eq_ofNat]
  rfl

/-! ### The gate (42_report_decoders.md R151) -/

theorem gateOk_eq_false_iff (m : Memory) : gateOk m = false ↔ Memory.read m 0 ≠ 2 ∨ Memory.read m 1 ≠ 1 := by
  rw [← Bool.not_eq_true, gateOk_iff, not_and_or]

/-! ### The decoders, completed -/

/-- DEC_POS as an update of the state before, when its six bytes are in the report. -/
theorem exec_decPos {s : State} (hlen : s.cur.toNat + 6 ≤ s.len.toNat) (hcap : s.cur.toNat + 6 ≤ 64) :
    exec .decPos s = .next { s with pos := fieldVec3 s.buf s.cur.toNat, status := 0 } :=
  exec_completes (i := .decPos) hlen (fun _ => hcap) fun g => absurd g (not_gated_of (by decide))

/-- DEC_ORI as an update of the state before, when its eighteen bytes are in the report. -/
theorem exec_decOri {s : State} (hlen : s.cur.toNat + 18 ≤ s.len.toNat) (hcap : s.cur.toNat + 18 ≤ 64) :
    exec .decOri s = .next
      { s with acc := fieldVec3 s.buf s.cur.toNat, gyro := fieldVec3 s.buf (s.cur.toNat + 12), status := 0 } :=
  exec_completes (i := .decOri) hlen (fun _ => hcap) fun g => absurd g (not_gated_of (by decide))

/-- DEC_CTRL as an update of the state before, when its length is met and its gate passes. -/
theorem exec_decCtrl {s : State} (hlen : 21 ≤ s.len.toNat) (gate : gateOk s.buf = true) :
    exec .decCtrl s = .next { s with ctrl := fieldControls s.buf, status := 0 } :=
  exec_completes (i := .decCtrl) hlen (fun _ => show 21 ≤ 64 by decide) fun _ => gate

/-- DEC_BASE as an update of the state before, when its length is met and its gate passes. -/
theorem exec_decBase {s : State} (hlen : 2 ≤ s.len.toNat) (gate : gateOk s.buf = true) :
    exec .decBase s = .next { s with status := 0 } :=
  exec_completes (i := .decBase) hlen (fun _ => show 2 ≤ 64 by decide) fun _ => gate

/-- Settles O18: DEC_POS writes the three fields at the cursor, or finds the report short. -/
theorem decPosFillsPosition : Obligations.DecPosFillsPosition := by
  refine ⟨rfl, fun s hlen hcap => ?_, fun s short => exec_truncated short⟩
  rw [exec_decPos hlen hcap, fieldVec3_eq_ofFn]

/-- Settles O19: DEC_ORI writes the two triples of the motion payload together, or finds the report short. -/
theorem decOriFillsMotion : Obligations.DecOriFillsMotion := by
  refine ⟨rfl, fun s hlen hcap => ?_, fun s short => exec_truncated short⟩
  rw [exec_decOri hlen hcap, fieldVec3_eq_ofFn, fieldVec3_eq_ofFn]

/-- Settles O20: the length first, then the gate, then the controller values. -/
theorem decCtrlFillsControls : Obligations.DecCtrlFillsControls := by
  refine ⟨rfl, fun s hlen h0 h1 => ?_, fun s hlen tag => ?_, fun s short => exec_truncated short⟩
  · rw [exec_decCtrl hlen ((gateOk_iff _).2 ⟨h0, h1⟩), fieldControls_eq_ofFn]
  · exact exec_unknownVersion (.inl rfl) hlen ((gateOk_eq_false_iff _).2 tag)

/-- Settles O23: the length first, then the gate, and nothing to write. -/
theorem decBaseTestsTag : Obligations.DecBaseTestsTag := by
  refine ⟨rfl, fun s hlen h0 h1 => ?_, fun s hlen tag => ?_, fun s short => exec_truncated short⟩
  · exact exec_decBase hlen ((gateOk_iff _).2 ⟨h0, h1⟩)
  · exact exec_unknownVersion (.inr rfl) hlen ((gateOk_eq_false_iff _).2 tag)

/-! ### The position in metres (R153) -/

theorem positionMetres_eq_div (v : Half) : positionMetres v = (sint16 v : Rat) / 10000 := by
  rw [positionMetres, Config.posScale, mul_one_div]

theorem sint16_bounds (v : Half) : -32768 ≤ sint16 v ∧ sint16 v ≤ 32767 := by
  rw [sint16_eq_toInt]
  exact ⟨BitVec.le_toInt v, Int.le_of_lt_add_one BitVec.toInt_lt⟩

theorem sint16_injective : Function.Injective sint16 := fun u v h =>
  BitVec.eq_of_toInt_eq (by rwa [sint16_eq_toInt, sint16_eq_toInt] at h)

/-- Scaling loses nothing, and neither does the signed reading. -/
theorem positionMetres_injective : Function.Injective positionMetres := fun u v h => by
  rw [positionMetres_eq_div, positionMetres_eq_div, div_left_inj' (by norm_num), Int.cast_inj] at h
  exact sint16_injective h

/-- The position that a raw value means, from its signed reading. -/
theorem positionMetres_of_sint16 {v : Half} {n : Int} (h : sint16 v = n) : positionMetres v = (n : Rat) / 10000 := by
  rw [positionMetres_eq_div, h]

theorem positionMetres_bounds (v : Half) :
    -(32768 / 10000) ≤ positionMetres v ∧ positionMetres v ≤ 32767 / 10000 := by
  obtain ⟨lower, upper⟩ := sint16_bounds v
  have lowerRat : (-32768 : Rat) ≤ sint16 v := by exact_mod_cast lower
  have upperRat : (sint16 v : Rat) ≤ 32767 := by exact_mod_cast upper
  rw [positionMetres_eq_div]
  constructor <;> linarith

/-- Settles O27: the signed reading, scaled; the five values are the scaled -32768, 32767, 160, 0 and -160. -/
theorem positionInMetres : Obligations.PositionInMetres := by
  refine ⟨fun v => ⟨?_, positionMetres_bounds v⟩, fun u v h => positionMetres_injective h, ?_, ?_, ?_, ?_, ?_⟩
  · rw [positionMetres_eq_div, sint16]
    split <;> push_cast <;> rfl
  · rw [positionMetres_of_sint16 (n := -32768) (by decide)]; norm_num
  · rw [positionMetres_of_sint16 (n := 32767) (by decide)]; norm_num
  · rw [positionMetres_of_sint16 (n := 160) (by decide)]; norm_num
  · rw [positionMetres_of_sint16 (n := 0) (by decide)]; norm_num
  · rw [positionMetres_of_sint16 (n := -160) (by decide)]; norm_num

end Sys2Proof.Machine

/-! The results of a command (60_exceptions.md). A command ends in one of the three ways of `exec_next_cases`, and these
exclude each other, so its `STATUS` says which of them it was. -/

namespace Sys2Proof.Machine

section
variable {i : Instr} {s t : State}

/-! ### Raising (R185) -/

theorem raise_eq (r : ResultCode) (s : State) : raise r s = { s with status := (raise r s).status } := rfl

theorem exec_eq_withStatus_of_raised (h : exec i s = .next t) (raised : t.status ≠ 0) :
    t = { s with status := t.status } := by
  rcases exec_next_cases h with ⟨-, rfl⟩ | ⟨-, -, -, rfl⟩ | ⟨-, -, -, rfl⟩
  · exact raise_eq _ s
  · exact raise_eq _ s
  · exact absurd (done_status _) raised

/-! ### Which result (R181 to R184) -/

/-- The length is tested before the gate, and a command that neither stops is done. -/
theorem exec_status (h : exec i s = .next t) :
    t.status =
      if s.len.toNat < lengthNeeded i s then 2
      else if (i = .decCtrl ∨ i = .decBase) ∧ ¬ (Memory.read s.buf 0 = 2 ∧ Memory.read s.buf 1 = 1) then 1
      else 0 := by
  rcases exec_next_cases h with ⟨short, rfl⟩ | ⟨long, gated, tag, rfl⟩ | ⟨long, pass, -, rfl⟩
  · rw [if_pos short, raise_status, statusCode]
  · have wrong := not_and_or.2 ((gateOk_eq_false_iff _).1 tag)
    rw [if_neg long.not_gt, if_pos ⟨gated, wrong⟩, raise_status, statusCode]
  · have right (gated : i.gated) := (gateOk_iff _).1 (pass gated)
    rw [if_neg long.not_gt, if_neg fun ⟨gated, wrong⟩ => wrong (right gated), done_status]

theorem exec_status_eq_two_iff (h : exec i s = .next t) : t.status = 2 ↔ s.len.toNat < lengthNeeded i s := by
  rw [exec_status h]
  split_ifs with short wrong
  · exact iff_of_true rfl short
  · exact iff_of_false (by decide) short
  · exact iff_of_false (by decide) short

theorem exec_status_eq_one_iff (h : exec i s = .next t) :
    t.status = 1 ↔ (i = .decCtrl ∨ i = .decBase) ∧ lengthNeeded i s ≤ s.len.toNat ∧
      (Memory.read s.buf 0 ≠ 2 ∨ Memory.read s.buf 1 ≠ 1) := by
  rw [exec_status h, ← not_and_or, ← not_lt, and_left_comm]
  split_ifs with short wrong
  · exact iff_of_false (by decide) fun ⟨long, _⟩ => long short
  · exact iff_of_true rfl ⟨short, wrong⟩
  · exact iff_of_false (by decide) fun ⟨_, tag⟩ => wrong tag

end

/-- Settles O32: a word that encodes no command raises, and a command that ends with a code other than 0 has raised. -/
theorem raisingChangesOnlyStatus : Obligations.RaisingChangesOnlyStatus := by
  intro w s t h raised
  rcases runCommand_next h with ⟨i, -, hi⟩ | ⟨-, rfl⟩
  · exact exec_eq_withStatus_of_raised hi raised
  · exact raise_eq _ s

/-- Settles O33: the word is decoded first, and the command it encodes has the result of `exec_status`. -/
theorem resultPriority : Obligations.ResultPriority := by
  intro w s t h
  rcases runCommand_next h with ⟨i, hw, hi⟩ | ⟨⟨e, hw⟩, rfl⟩
  · refine ⟨fun illegal => absurd hw (illegal i), fun j hj => ?_⟩
    obtain rfl : i = j := Except.ok.inj (hw.symm.trans hj)
    exact exec_status hi
  · exact ⟨fun _ => rfl, fun i hi => nomatch hw.symm.trans hi⟩

/-- Settles O34: a short report raises before anything else, and nothing else gives code 2. -/
theorem truncatedReportCauses : Obligations.TruncatedReportCauses := fun _ _ =>
  ⟨exec_truncated, fun _ h long code => long.not_gt ((exec_status_eq_two_iff h).1 code)⟩

/-- Settles O35: code 1 comes from the gate alone, and a command that gives it has raised. -/
theorem unknownVersionCauses : Obligations.UnknownVersionCauses := by
  intro i s t h
  refine ⟨exec_status_eq_one_iff h, fun code => ?_⟩
  have frame := exec_eq_withStatus_of_raised h (by rw [code]; decide)
  rwa [code] at frame

end Sys2Proof.Machine

/-! The encoder and the decoder as inverse maps (30_encoding.md R75, R76, R91). -/

namespace Sys2Proof

/-- Settles O1: the decoder splits a command's word into the two fields that the encoder put together. -/
theorem decodeInvertsEncode : Obligations.DecodeInvertsEncode := fun _ wf => decode_encode wf

/-- Settles O2: each way a word decodes gives a command whose two fields are the word's. -/
theorem encodeInvertsDecode : Obligations.EncodeInvertsDecode := fun _ _ legal => encode_of_decode legal

theorem wellFormed_setcur (n : Byte) : (Instr.setcur n.toNat).WellFormed := decide_eq_true n.isLt

theorem wellFormed_skip (n : Byte) : (Instr.skip n.toNat).WellFormed := decide_eq_true n.isLt

/-- Settles O3: the encoder writes these words, and the decoder inverts it on every command, each operand included. -/
theorem opcodeMapWords : Obligations.OpcodeMapWords := by
  refine ⟨fun n => ⟨⟨?_, encode_setcur n⟩, ?_, encode_skip n⟩, ?_⟩
  · rw [← encode_setcur, decode_encode (wellFormed_setcur n)]
  · rw [← encode_skip, decode_encode (wellFormed_skip n)]
  · exact ⟨⟨rfl, rfl⟩, ⟨rfl, rfl⟩, ⟨rfl, rfl⟩, ⟨rfl, rfl⟩, ⟨rfl, rfl⟩, ⟨rfl, rfl⟩, ⟨rfl, rfl⟩, ⟨rfl, rfl⟩, ⟨rfl, rfl⟩⟩

end Sys2Proof

/-! The cipher as a whole (41_cipher_engine.md sections 2 to 6). An update of a word changes no operand of its own mix,
so it is undone by the opposite update; the two transforms make opposite updates in opposite orders. -/

namespace Sys2Proof.Machine

/-! ### The mix function and the key schedule (R122 to R124) -/

theorem keyIndex_val (e : BitVec 2) (p : Nat) : (keyIndex e p).val = (p ^^^ e.toNat) % 4 := by
  have digits : e.toNat % 2 ^ 2 = e.toNat := Nat.mod_eq_of_lt e.isLt
  calc (keyIndex e p).val = (BitVec.ofNat 2 p ^^^ e).toNat := rfl
    _ = p % 2 ^ 2 ^^^ e.toNat % 2 ^ 2 := by rw [BitVec.toNat_xor, BitVec.toNat_ofNat, digits]
    _ = (p ^^^ e.toNat) % 2 ^ 2 := (Nat.xor_mod_two_pow ..).symm

/-- Settles O11: each operator of the mix, read as an operation on natural numbers. -/
theorem mixIsTheFormula : Obligations.MixIsTheFormula := by
  intro z y sum e p _
  refine ⟨keyIndex e p, keyIndex_val e p, ?_⟩
  simp only [mix, BitVec.toNat_xor, BitVec.toNat_add, BitVec.toNat_ushiftRight, BitVec.toNat_shiftLeft,
    Nat.shiftRight_eq_div_pow, Nat.shiftLeft_eq, Nat.reducePow]

/-- The four rounds of DECRYPT with their sums (R123). -/
theorem decryptBlock_eq_rounds (w : Block) : decryptBlock w =
    decryptRound 0x9E3779B9 (decryptRound 0x3C6EF372 (decryptRound 0xDAA66D2B (decryptRound 0x78DDE6E4 w))) := by
  have sum1 : Config.sum0 = 0x78DDE6E4 := by decide
  have sum2 : (0x78DDE6E4 : Word) - Config.delta = 0xDAA66D2B := by decide
  have sum3 : (0xDAA66D2B : Word) - Config.delta = 0x3C6EF372 := by decide
  have sum4 : (0x3C6EF372 : Word) - Config.delta = 0x9E3779B9 := by decide
  simp only [decryptBlock, Config.rounds_eq, decryptRounds, sum1, sum2, sum3, sum4]

/-- Settles O12: the schedule is `decryptBlock_eq_rounds`; the constants and the tables of R123 are closed facts. -/
theorem keySchedule : Obligations.KeySchedule := by
  refine ⟨rfl, rfl, ⟨rfl, rfl, rfl, rfl⟩, decryptBlock_eq_rounds, ?_⟩
  decide

/-! ### The formulation with a running variable (R134) -/

/-- With `Y` the word after `p`, the update of `p` is DECRYPT's and leaves the new word `p` in `Y`. -/
theorem decryptStepRunning_eq (sum : Word) (w : Block) {p q : Fin 15} (h : p + 1 = q) :
    decryptStepRunning sum (w, w[q]) p = (decryptStep sum w p, (decryptStep sum w p)[p]) := by
  subst h
  rw [decryptStep_getElem_self]
  rfl

/-- `Y` is the word updated last, as long as each update is of the word before it. -/
theorem decryptStepsRunning_eq (sum : Word) (w : Block) {l : List (Fin 15)} {q last : Fin 15}
    (order : (q :: l).IsChain fun q p => p + 1 = q) (hlast : l.getLastD q = last) :
    l.foldl (decryptStepRunning sum) (w, w[q]) =
      (l.foldl (decryptStep sum) w, (l.foldl (decryptStep sum) w)[last]) := by
  induction l generalizing w q with
  | nil => subst hlast; rfl
  | cons p l ih =>
    obtain ⟨next, rest⟩ := List.isChain_cons_cons.1 order
    rw [List.getLastD_cons] at hlast
    rw [List.foldl_cons, decryptStepRunning_eq sum w next, ih _ rest hlast, List.foldl_cons]

/-- A round begins with `Y` the word after word 14, which is word 0, and ends with the new word 0 (R134). -/
theorem decryptRoundRunning_eq (sum : Word) (w : Block) :
    (List.finRange 15).reverse.foldl (decryptStepRunning sum) (w, w[(0 : Fin 15)]) =
      (decryptRound sum w, (decryptRound sum w)[(0 : Fin 15)]) :=
  decryptStepsRunning_eq sum w (by decide) (by decide)

theorem decryptRoundsRunning_eq (n : Nat) (sum : Word) (w : Block) :
    decryptRoundsRunning n sum (w, w[(0 : Fin 15)]) =
      (decryptRounds n sum w, (decryptRounds n sum w)[(0 : Fin 15)]) := by
  induction n generalizing sum w with
  | zero => rfl
  | succ n ih => rw [decryptRoundsRunning, decryptRoundRunning_eq, ih, decryptRounds]

/-- Settles O14: `Y` always holds the word that the next update reads as its following word. -/
theorem runningVariableFormAgrees : Obligations.RunningVariableFormAgrees := by
  intro w
  have first : w[0] = w[(0 : Fin 15)] := rfl
  rw [decryptBlockRunning, first, decryptRoundsRunning_eq, decryptBlock]

/-! ### The round trip (R135 to R137) -/

theorem decryptStep_encryptStep (sum : Word) (w : Block) (p : Fin 15) :
    decryptStep sum (encryptStep sum w p) p = w := by
  have mixed : mixAt sum (encryptStep sum w p) p = mixAt sum w p := mixAt_set_self ..
  rw [decryptStep, encryptStep_getElem_self, mixed, BitVec.add_sub_cancel, encryptStep, set_set_self,
    set_getElem_eq_self]

theorem encryptStep_decryptStep (sum : Word) (w : Block) (p : Fin 15) :
    encryptStep sum (decryptStep sum w p) p = w := by
  have mixed : mixAt sum (decryptStep sum w p) p = mixAt sum w p := mixAt_set_self ..
  rw [encryptStep, decryptStep_getElem_self, mixed, BitVec.sub_add_cancel, decryptStep, set_set_self,
    set_getElem_eq_self]

/-- Updates made in one order are undone by the opposite updates made in the reverse order. -/
theorem foldl_reverse_foldl {α β : Type} {f g : β → α → β} (undo : ∀ b a, g (f b a) a = b) (l : List α) (b : β) :
    l.reverse.foldl g (l.foldl f b) = b := by
  induction l generalizing b with
  | nil => rfl
  | cons a l ih => rw [List.foldl_cons, List.reverse_cons, List.foldl_append, ih, List.foldl_cons, List.foldl_nil, undo]

theorem decryptRound_encryptRound (sum : Word) (w : Block) : decryptRound sum (encryptRound sum w) = w :=
  foldl_reverse_foldl (decryptStep_encryptStep sum) (List.finRange 15) w

theorem encryptRound_decryptRound (sum : Word) (w : Block) : encryptRound sum (decryptRound sum w) = w := by
  have undone := foldl_reverse_foldl (encryptStep_decryptStep sum) (List.finRange 15).reverse w
  rwa [List.reverse_reverse] at undone

/-- The four rounds of ENCRYPT15 (R136): the sums of DECRYPT's rounds, the last one first. -/
theorem encrypt15_eq_rounds (w : Block) : encrypt15 w =
    encryptRound 0x78DDE6E4 (encryptRound 0xDAA66D2B (encryptRound 0x3C6EF372 (encryptRound 0x9E3779B9 w))) := by
  have sum1 : (0 : Word) + Config.delta = 0x9E3779B9 := by decide
  have sum2 : (0x9E3779B9 : Word) + Config.delta = 0x3C6EF372 := by decide
  have sum3 : (0x3C6EF372 : Word) + Config.delta = 0xDAA66D2B := by decide
  have sum4 : (0xDAA66D2B : Word) + Config.delta = 0x78DDE6E4 := by decide
  simp only [encrypt15, Config.rounds_eq, encryptRounds, sum1, sum2, sum3, sum4]

theorem decryptBlock_encrypt15 (w : Block) : decryptBlock (encrypt15 w) = w := by
  simp only [decryptBlock_eq_rounds, encrypt15_eq_rounds, decryptRound_encryptRound]

theorem encrypt15_decryptBlock (w : Block) : encrypt15 (decryptBlock w) = w := by
  simp only [decryptBlock_eq_rounds, encrypt15_eq_rounds, encryptRound_decryptRound]

/-- Settles O15: the innermost rounds have the same sum and undo each other, then the next two, and so on. -/
theorem cipherRoundTrip : Obligations.CipherRoundTrip := fun w =>
  ⟨decryptBlock_encrypt15 w, encrypt15_decryptBlock w⟩

/-! ### DECRYPT on the machine (41_cipher_engine.md sections 5 and 6) -/

/-- Settles O16: the words written back are the decryption of the words loaded. -/
theorem decryptRecoversPlaintext : Obligations.DecryptRecoversPlaintext := by
  intro s w wf hlen loaded
  refine ⟨_, exec_decrypt hlen, fun i => ?_, fun a => read_storeBlock_outside _ _⟩
  rw [leValue_storeBlock _ wf, loaded, decryptBlock_encrypt15]

/-- Settles O17: the words that the first DECRYPT writes back are the words that the second loads. -/
theorem secondDecryptTransformsAgain : Obligations.SecondDecryptTransformsAgain := by
  intro s wf hlen
  refine ⟨_, _, exec_decrypt hlen, exec_decrypt hlen, rfl, ?_⟩
  have wf' := storeBlock_wf (decryptBlock (loadBlock s.buf)) wf
  rw [loadBlock_storeBlock _ wf', loadBlock_storeBlock _ wf]

end Sys2Proof.Machine

/-! What a command changes and what it needs (10_state.md, 42_report_decoders.md section 5, 60_exceptions.md): each fact
is read off the three ways a command ends, and for the third way off its effect. -/

namespace Sys2Proof.Machine

/-! ### DEC_HMD and the equivalences of section 5 (R158, R162) -/

/-- The motion payload at `a`, when its eighteen bytes are in the report (R84). -/
theorem decodeMotion_completes {a : Nat} {s : State} (hlen : a + 18 ≤ s.len.toNat) (hcap : a + 18 ≤ 64) :
    decodeMotion a s = .next { s with acc := fieldVec3 s.buf a, gyro := fieldVec3 s.buf (a + 12), status := 0 } :=
  withBound_enough hlen hcap _

theorem decodeMotion_truncated {a : Nat} {s : State} (short : s.len.toNat < a + 18) :
    decodeMotion a s = .next { s with status := 2 } :=
  withBound_short short _

theorem exec_decHmd (s : State) : exec .decHmd s = decodeMotion 31 s := rfl

/-- Settles O21: DEC_HMD is the motion payload at 31, with no gate. -/
theorem decHmdFillsMotion : Obligations.DecHmdFillsMotion := by
  refine ⟨rfl, fun s hlen => ?_, fun s short => exec_truncated short⟩
  rw [exec_decHmd, decodeMotion_completes hlen (by decide), fieldVec3_eq_ofFn, fieldVec3_eq_ofFn]

/-- Settles O22: at both offsets the payload ends inside the address space. -/
theorem decodeHmdAtEitherOffset : Obligations.DecodeHmdAtEitherOffset := by
  intro M s admitted
  have hcap : M + 18 ≤ 64 := by omega
  refine ⟨fun hlen => ?_, fun short => decodeMotion_truncated short⟩
  rw [decodeHmd, decodeMotion_completes hlen hcap, fieldVec3_eq_ofFn, fieldVec3_eq_ofFn]

/-- Settles O25: both ways of seeking end at 31, where DEC_ORI reads the payload that DEC_HMD reads. -/
theorem hmdEqualsSeekThenOri : Obligations.HmdEqualsSeekThenOri := by
  intro s hlen _
  have h25 : (25 : Byte).toNat ≤ s.len.toNat := le_trans (by decide) hlen
  have h31 : (31 : Byte).toNat ≤ s.len.toNat := le_trans (by decide) hlen
  have at31 {t : State} (hcur : t.cur = 31) (ht : t.len = s.len) := exec_decOri (s := t)
    (by rw [hcur, ht]; exact hlen) (by rw [hcur]; decide)
  exact ⟨_, _, _, _, _, _, _, decodeMotion_completes hlen (by decide),
    moveCursor_completes (c := 31) rfl h31, at31 rfl rfl, rfl,
    moveCursor_completes (c := 0) rfl (Nat.zero_le _), moveCursor_completes (c := 25) rfl h25,
    moveCursor_completes (c := 31) rfl h31, at31 rfl rfl, rfl⟩

/-- The low half of a sign-extended value is the value. -/
theorem setWidth_sext32 (v : Half) : (sext32 v).setWidth 16 = v := by
  ext i hi
  simp [sext32, BitVec.getElem_signExtend, hi, hi.trans (show 16 < 32 by decide)]

/-- RD16 as an update of the state before, when its two bytes are in the report. -/
theorem exec_rd16_completes {s : State} {c : Byte} (hc : c.toNat = s.cur.toNat + 2) (hlen : c.toNat ≤ s.len.toNat)
    (hcap : c.toNat ≤ 64) :
    exec .rd16 s = .next { s with rval := sext32 (memRead2 s.buf s.cur.toNat), cur := c, status := 0 } :=
  fieldRead_completes hc hlen hcap _

/-- Settles O26: the three reads are of the three fields of DEC_POS, since each moves the cursor to the next. -/
theorem posEqualsThreeRd16 : Obligations.PosEqualsThreeRd16 := by
  intro s hlen hcap
  have advance {k : Nat} (hk : k ≤ 6) : (BitVec.ofNat 8 (s.cur.toNat + k)).toNat = s.cur.toNat + k :=
    Nat.mod_eq_of_lt (by omega)
  have h2 := advance (k := 2) (by decide)
  have h4 := advance (k := 4) (by decide)
  have h6 := advance (k := 6) (by decide)
  refine ⟨_, _, _, _, exec_decPos hlen (by omega), exec_rd16_completes h2 (by omega) (by omega),
    exec_rd16_completes (c := BitVec.ofNat 8 (s.cur.toNat + 4)) (by simp only; omega) (by simp only; omega) (by omega),
    exec_rd16_completes (c := BitVec.ofNat 8 (s.cur.toNat + 6)) (by simp only; omega) (by simp only; omega) (by omega),
    ?_, h6, rfl⟩
  simp only [setWidth_sext32, h2, h4, fieldVec3]

/-! ### Commands issued again (R57, R164; 60_exceptions.md section 4) -/

/-- A command that raised raises the same result in every state with the same `BUF`, `LEN` and `CUR`. -/
theorem exec_raised_congr {i : Instr} {s t u : State} (h : exec i s = .next t) (raised : t.status ≠ 0)
    (buf : u.buf = s.buf) (len : u.len = s.len) (cur : u.cur = s.cur) :
    exec i u = .next { u with status := t.status } := by
  have same : SameInputs u s := ⟨len, cur, fun a _ => by rw [buf]⟩
  have needed := same.lengthNeeded_eq i
  rcases exec_next_cases h with ⟨short, rfl⟩ | ⟨long, gated, tag, rfl⟩ | ⟨-, -, -, rfl⟩
  · exact exec_truncated (by rwa [needed, len])
  · exact exec_unknownVersion gated (by rwa [needed, len]) (by rwa [buf])
  · exact absurd (done_status _) raised

/-- Settles O36: raising changed none of the three registers that the result depends on. -/
theorem retryGivesSameResult : Obligations.RetryGivesSameResult := by
  intro i s t u h raised buf len cur
  have frame := exec_eq_withStatus_of_raised h raised
  rw [frame] at buf len cur
  exact exec_raised_congr h raised buf len cur

/-- What a composite decoder writes is not among what it reads (R164). -/
theorem effect_decoder_idempotent {i : Instr} (hi : i.decoder) (s : State) :
    lengthNeeded i (done (effect i s)) = lengthNeeded i s ∧ (done (effect i s)).buf = s.buf ∧
      done (effect i (done (effect i s))) = done (effect i s) := by
  rcases hi with rfl | rfl | rfl | rfl | rfl <;> exact ⟨rfl, rfl, rfl⟩

/-- Settles O24: a decoder that raised raises again (O36), and one that completed left its own inputs as they were. -/
theorem decodersAreIdempotent : Obligations.DecodersAreIdempotent := by
  intro i s t hi h
  rcases exec_next_cases h with ⟨-, rfl⟩ | ⟨-, -, -, rfl⟩ | ⟨long, gate, cap, rfl⟩
  · exact retryGivesSameResult i s _ _ h (show (2 : Byte) ≠ 0 by decide) rfl rfl rfl
  · exact retryGivesSameResult i s _ _ h (show (1 : Byte) ≠ 0 by decide) rfl rfl rfl
  · obtain ⟨needed, buf, again⟩ := effect_decoder_idempotent hi s
    rw [exec_completes (by rwa [needed, done_len, effect_len]) (by rwa [needed]) (by rwa [buf]), again]

end Sys2Proof.Machine

/-! The buffer (20_memory.md): reads and stores as the sums and digits of R52 and R53. -/

namespace Sys2Proof.Machine

/-- Settles O28: each read is a chain of appended bytes, and the sum of R52 grows by a byte in the same way. -/
theorem readsAreLittleEndian : Obligations.ReadsAreLittleEndian := by
  intro m a
  refine ⟨?_, memRead2_toNat m a, memRead4_toNat m a⟩
  rw [leValue_succ, leValue_zero, Nat.zero_mul, Nat.zero_add, memRead1]

/-- Byte `i` of a word is its digit `i` to base 256 (R53). -/
theorem byteOfWord_toNat (v : Word) (i : Nat) : (byteOfWord v i).toNat = v.toNat / 2 ^ (8 * i) % 256 := by
  rw [byteOfWord, BitVec.extractLsb'_toNat, Nat.shiftRight_eq_div_pow]

/-- A 16-bit read is the low byte and 256 times the high byte. -/
theorem memRead2_toNat_eq_add (m : Memory) (a : Nat) :
    (memRead2 m a).toNat = (Memory.read m (a + 1)).toNat * 256 + (Memory.read m a).toNat :=
  toNat_append_byte ..

/-- Settles O29: the bytes stored are the digits of the value; the straddling read puts digits 1 and 2 together. -/
theorem wordStoreIsLittleEndian : Obligations.WordStoreIsLittleEndian := by
  intro m a v wf cap
  have digit (i : Nat) (hi : i < 4) :
      (Memory.read (memWrite4 m a v) (a + i)).toNat = v.toNat / 2 ^ (8 * i) % 256 := by
    rw [read_memWrite4_inside wf cap v hi, byteOfWord_toNat]
  have whole : memRead4 (memWrite4 m a v) a = v := memRead4_memWrite4_self wf cap v
  refine ⟨memWrite4_wf wf cap v, digit, fun c outside => read_memWrite4_outside m v outside, whole, ?_, ?_⟩
  · rw [← memRead4_toNat, whole]
  · rw [memRead2_toNat_eq_add, Nat.add_assoc, digit 1 (by decide), digit (1 + 1) (by decide)]
    omega

end Sys2Proof.Machine

/-! The commands (10_state.md sections 1 and 2): what they change, and where the model stops. -/

namespace Sys2Proof.Machine

/-! ### What a command changes -/

theorem effect_buf_of_ne_decrypt {i : Instr} (h : i ≠ .decrypt) (s : State) : (effect i s).buf = s.buf := by
  cases i with
  | decrypt => exact absurd rfl h
  | setcur n | skip n | rd8 | rd16 | rd32 | decPos | decOri | decCtrl | decHmd | decBase => rfl

/-- A command leaves `BUF` as it is, or is a DECRYPT of a report of 61 bytes or more. -/
theorem exec_buf_cases {i : Instr} {s t : State} (h : exec i s = .next t) :
    t.buf = s.buf ∨
    i = .decrypt ∧ 61 ≤ s.len.toNat ∧ t.buf = storeBlock (decryptBlock (loadBlock s.buf)) s.buf := by
  rcases exec_next_cases h with ⟨-, rfl⟩ | ⟨-, -, -, rfl⟩ | ⟨long, -, -, rfl⟩
  · exact .inl rfl
  · exact .inl rfl
  · by_cases hi : i = .decrypt
    · subst hi
      exact .inr ⟨rfl, long, by rw [done_buf, effect, setBuffer_buf]⟩
    · exact .inl (effect_buf_of_ne_decrypt hi s)

theorem exec_len {i : Instr} {s t : State} (h : exec i s = .next t) : t.len = s.len := by
  rcases exec_next_cases h with ⟨-, rfl⟩ | ⟨-, -, -, rfl⟩ | ⟨-, -, -, rfl⟩ <;> simp

/-- Settles O30: DECRYPT writes back offsets 1 to 60, and only with those below `LEN`. -/
theorem commandsWriteBufferBelowLen : Obligations.CommandsWriteBufferBelowLen := by
  intro i s t h
  refine ⟨exec_len h, ?_⟩
  rcases exec_buf_cases h with same | ⟨rfl, hlen, written⟩
  · rw [same]
    exact ⟨fun _ => rfl, fun _ _ => rfl, fun _ _ => rfl⟩
  · have outside {a : Nat} (ha : a < 1 ∨ 61 ≤ a) : Memory.read t.buf a = Memory.read s.buf a :=
      written ▸ read_storeBlock_outside _ _ ha
    exact ⟨fun other => absurd rfl other, fun a ha => outside (by omega), fun a ha => outside (by omega)⟩

/-- Settles O31: raising writes `STATUS` alone, and each effect writes the registers its command is named for. -/
theorem commandWriteSets : Obligations.CommandWriteSets := by
  intro i s t h
  rcases exec_next_cases h with ⟨-, rfl⟩ | ⟨-, -, -, rfl⟩ | ⟨-, -, -, rfl⟩
  · simp
  · simp
  · cases i with
    | setcur n | skip n | rd8 | rd16 | rd32 | decrypt | decPos | decOri | decCtrl | decHmd | decBase => simp [effect]

/-! ### The one stop (log 6) -/

theorem withBound_missing {n : Nat} {s : State} (hlen : n ≤ s.len.toNat) (hcap : 64 < n) (body : StepResult) :
    withBound n s body = .fault .noSuchByte := by
  rw [withBound, if_neg hlen.not_gt, Config.bufCap_eq, if_pos hcap]

/-- A command that touches bytes beyond `BUF_CAP` which `LEN` promises stops the model. -/
theorem exec_missing {i : Instr} {s : State} (touches : touchesBuffer i) (hcap : 64 < lengthNeeded i s)
    (hlen : lengthNeeded i s ≤ s.len.toNat) : exec i s = .fault .noSuchByte := by
  cases i with
  | setcur n => exact absurd rfl (touches.1 n)
  | skip n => exact absurd rfl (touches.2 n)
  | rd8 | rd16 | rd32 | decrypt | decPos | decOri | decCtrl | decHmd | decBase => exact withBound_missing hlen hcap _

/-- In every other state a command answers a next state. -/
theorem exec_answers_of_not_missing {i : Instr} {s : State}
    (h : ¬ (touchesBuffer i ∧ 64 < lengthNeeded i s ∧ lengthNeeded i s ≤ s.len.toNat)) : ∃ t, exec i s = .next t := by
  rcases lt_or_ge s.len.toNat (lengthNeeded i s) with short | long
  · exact ⟨_, exec_truncated short⟩
  · exact exec_answers fun touches => not_lt.1 fun cap => h ⟨touches, cap, long⟩

theorem touchesBuffer_iff (i : Instr) : touchesBuffer i ↔ ∀ n, i ≠ .setcur n ∧ i ≠ .skip n := forall_and.symm

/-- Settles O39: a command whose bytes are missing stops, and every other answers a next state. -/
theorem onlyMissingBytesStop : Obligations.OnlyMissingBytesStop := by
  intro i s
  rw [← touchesBuffer_iff]
  by_cases missing : touchesBuffer i ∧ 64 < lengthNeeded i s ∧ lengthNeeded i s ≤ s.len.toNat
  · obtain ⟨touches, cap, long⟩ := missing
    rw [exec_missing touches cap long]
    exact ⟨iff_of_true rfl ⟨touches, cap, long⟩, nofun⟩
  · obtain ⟨t, answer⟩ := exec_answers_of_not_missing missing
    rw [answer]
    exact ⟨iff_of_false nofun missing, nofun⟩

/-! ### An empty report (10_state.md section 9) -/

/-- The length a command needs is no matter of the bytes of `BUF`. -/
theorem lengthNeeded_withBuffer (i : Instr) (s : State) (m : Memory) :
    lengthNeeded i { s with buf := m } = lengthNeeded i s := by
  cases i <;> rfl

theorem lengthNeeded_pos_of_touchesBuffer {i : Instr} (h : touchesBuffer i) (s : State) : 0 < lengthNeeded i s := by
  cases i with
  | setcur n => exact absurd rfl (h.1 n)
  | skip n => exact absurd rfl (h.2 n)
  | rd8 | rd16 | rd32 | decrypt | decPos | decOri | decCtrl | decHmd | decBase => simp [lengthNeeded]

/-- SETCUR and SKIP do not look at `BUF`. -/
theorem effect_withBuffer {i : Instr} (h : ¬ touchesBuffer i) (s : State) (m : Memory) :
    (effect i s).buf = s.buf ∧ effect i { s with buf := m } = { effect i s with buf := m } := by
  cases i with
  | setcur n | skip n => exact ⟨rfl, rfl⟩
  | rd8 | rd16 | rd32 | decrypt | decPos | decOri | decCtrl | decHmd | decBase =>
    exact absurd (by simp [touchesBuffer]) h

/-- Settles O38: with no byte in the report, a command raises at once or is a move of the cursor to 0. -/
theorem emptyReportIgnoresBuffer : Obligations.EmptyReportIgnoresBuffer := by
  intro i s m empty
  have hlen : s.len.toNat = 0 := by rw [empty]; rfl
  have needed := lengthNeeded_withBuffer i s m
  rcases Nat.eq_zero_or_pos (lengthNeeded i s) with zero | pos
  · have untouched : ¬ touchesBuffer i := fun touches => (lengthNeeded_pos_of_touchesBuffer touches s).ne' zero
    have ungated : ¬ i.gated := fun g => by have := two_le_lengthNeeded_of_gated g s; omega
    obtain ⟨buf, same⟩ := effect_withBuffer untouched s m
    have long : lengthNeeded i s ≤ s.len.toNat := zero.trans_le (Nat.zero_le _)
    refine ⟨_, exec_completes long (fun h => absurd h untouched) (fun g => absurd g ungated), buf, ?_⟩
    rw [exec_completes (needed.trans_le long) (fun h => absurd h untouched) (fun g => absurd g ungated), same]
    rfl
  · have short : s.len.toNat < lengthNeeded i s := hlen.trans_lt pos
    exact ⟨_, exec_truncated short, rfl, exec_truncated (short.trans_eq needed.symm)⟩

end Sys2Proof.Machine

/-! The host's actions (10_state.md sections 8 and 9, 70_reset_and_hazards.md): what one step does with each of them. -/

namespace Sys2Proof.Machine

/-- A step carries out the first action of the script in the state that has lost it. -/
theorem step_cons {s : State} {a : HostAction} {rest : List HostAction} (h : s.script = a :: rest) :
    step s = act a { s with script := rest } := by
  rw [step_action h, popAction_eq h]

/-! ### Host writes (R37) -/

/-- A step that writes `CMD` runs the command word. -/
theorem step_write_cmd {s : State} {n : Byte} {v : Word} {rest : List HostAction} (h : s.script = .write n v :: rest)
    (hn : hostReg n = .cmd) : step s = runCommand (v.setWidth 16) { s with script := rest } := by
  rw [step_cons h, act_write, if_pos hn]

/-- A step that writes another register is the write. -/
theorem step_write {s : State} {n : Byte} {v : Word} {rest : List HostAction} {r : HostReg}
    (h : s.script = .write n v :: rest) (hn : hostReg n = r) (hr : r ≠ .cmd) :
    step s = .next (hostWrite r v { s with script := rest }) := by
  subst hn
  rw [step_cons h, act_write, if_neg hr]

/-- `LEN` takes the low byte of the value, saturated (R22). -/
theorem writeLen_len_toNat (v : Word) (s : State) : (writeLen v s).len.toNat = min (v.toNat % 256) 64 := by
  rw [writeLen_len, BitVec.toNat_setWidth, Config.bufCap_eq, BitVec.toNat_ofNat]
  exact Nat.mod_eq_of_lt (by omega)

/-- Settles O40: the register number 0 is `CMD`. -/
theorem stepRunsDecodedCommand : Obligations.StepRunsDecodedCommand := by
  intro s v rest i h decoded
  rw [step_write_cmd h rfl, runCommand_ok decoded]

/-- Settles O42: each clause is the equation of `hostWrite` for its register. -/
theorem hostWriteEffects : Obligations.HostWriteEffects := by
  intro s n v rest h
  refine ⟨step_write_cmd h, fun hn => ?_, fun i hn => step_write h hn (by simp), fun i hn => step_write h hn (by simp),
    fun i hn => step_write h hn (by simp), fun i hn => step_write h hn (by simp), fun i hn wf => ?_, ?_⟩
  · exact ⟨_, writeLen_len_toNat v { s with script := rest }, step_write h hn (by simp)⟩
  · exact ⟨_, step_write h hn (by simp), read_write_self wf i _, fun a ha => read_write_other s.buf _ ha⟩
  · rintro (hn | hn | hn | hn) <;> exact step_write h hn (by simp)

/-! ### The register map (R36) -/

/-- The numbers of the bytes of `BUF`. -/
theorem hostReg_buf (i : Fin 64) : hostReg (BitVec.ofNat 8 (0x40 + i)) = .buf i := by
  revert i; decide

/-- A number is reserved if it belongs to no bank and is none of the single registers. -/
theorem hostReg_eq_reserved_iff (n : Byte) : hostReg n = .reserved ↔
    ¬ (n.toNat ≤ 0x04 ∨ (0x10 ≤ n.toNat ∧ n.toNat ≤ 0x12) ∨ (0x14 ≤ n.toNat ∧ n.toNat ≤ 0x16) ∨
      (0x18 ≤ n.toNat ∧ n.toNat ≤ 0x1A) ∨ (0x20 ≤ n.toNat ∧ n.toNat ≤ 0x27) ∨
      (0x40 ≤ n.toNat ∧ n.toNat ≤ 0x7F)) := by
  revert n; decide

/-- Settles O41: the map is finite, and the registers that ignore a write do so by definition. -/
theorem hostRegisterNumbers : Obligations.HostRegisterNumbers :=
  ⟨by decide, by decide, by decide, hostReg_buf, hostReg_eq_reserved_iff, fun _ => ⟨rfl, rfl⟩,
    fun _ _ => ⟨rfl, rfl, rfl, rfl⟩⟩

/-! ### Host reads (R38) -/

theorem step_read {s : State} {n : Byte} {rest : List HostAction} (h : s.script = .read n :: rest) :
    step s = .next { s with script := rest, rdata := hostRead (hostReg n) { s with script := rest } } :=
  step_cons h

/-- What the register numbered `n` reads as, from what the register it names reads as. -/
theorem hostRead_toNat {n : Byte} {r : HostReg} {s : State} {x : Nat} (value : (hostRead r s).toNat = x)
    (hn : hostReg n = r) : (hostRead (hostReg n) s).toNat = x := by
  rw [hn, value]

/-- Settles O43: a register reads as 0 or zero-extended, and none is wider than the 32 bits of a host access (log 4). -/
theorem hostReadHasNoSideEffect : Obligations.HostReadHasNoSideEffect := by
  intro s n rest h
  have extended {w : Nat} {x : BitVec w} (hw : w ≤ 32) : (x.setWidth 32).toNat = x.toNat :=
    BitVec.toNat_setWidth_of_le hw
  have half : 16 ≤ 32 := by decide
  have byte : 8 ≤ 32 := by decide
  refine ⟨_, step_read h, fun hn => hn.elim (hostRead_toNat rfl) (hostRead_toNat rfl), ?_⟩
  exact ⟨hostRead_toNat (extended byte), hostRead_toNat (extended byte), hostRead_toNat (extended byte),
    hostRead_toNat rfl, fun _ => hostRead_toNat (extended half), fun _ => hostRead_toNat (extended half),
    fun _ => hostRead_toNat (extended half), fun _ => hostRead_toNat (extended byte),
    fun _ => hostRead_toNat (extended byte)⟩

/-! ### LOAD (R80) -/

/-- The writes of LOAD put the bytes into `BUF` one after the other, and then the rest of the script runs. -/
theorem run_loadWrites {a : Nat} {bytes : List Byte} (cap : a + bytes.length ≤ 64) {rest : List HostAction} (k : Nat)
    {s : State} (h : s.script = loadWrites a bytes ++ rest) :
    run (bytes.length + k) s = run k { s with script := rest, buf := Memory.writeList s.buf a bytes } := by
  induction bytes generalizing a s with
  | nil =>
    have same : { s with script := rest } = s := withScript_eq_self h
    rw [List.length_nil, Nat.zero_add, Memory.writeList, same]
  | cons b bytes ih =>
    rw [List.length_cons] at cap ⊢
    have low : (b.setWidth 32 : Word).setWidth 8 = b := by
      rw [BitVec.setWidth_setWidth_of_le _ (by decide), BitVec.setWidth_eq]
    have first := step_write h (hostReg_buf ⟨a, by omega⟩) (by simp)
    rw [Nat.add_right_comm, run_of_step first, ih (a := a + 1) (by omega) rfl, hostWrite, low, Memory.writeList]

/-- Settles O44: after the bytes, the write of `LEN` ends the script. -/
theorem loadDeliversReport : Obligations.LoadDeliversReport := by
  intro s bytes wf cap h
  have hlen : (writeLen (BitVec.ofNat 32 bytes.length) s).len.toNat = bytes.length := by
    rw [writeLen_len_toNat, BitVec.toNat_ofNat]
    omega
  refine ⟨Memory.writeList s.buf 0 bytes, _, ?_, hlen, fun i hi => ?_, fun a ha => ?_⟩
  · rw [run_loadWrites (by omega) 1 h, run_one]
    exact step_write (r := .len) rfl rfl (by simp)
  · have byte := read_writeList_inside wf (a := 0) (by rwa [Nat.zero_add]) hi
    rwa [Nat.zero_add] at byte
  · exact read_writeList_outside _ _ (.inr (by rwa [Nat.zero_add]))

/-! ### The script -/

theorem runCommand_script {w : CmdWord} {s t : State} (h : runCommand w s = .next t) : t.script = s.script := by
  rcases runCommand_next h with ⟨i, -, hi⟩ | ⟨-, rfl⟩
  · exact exec_script hi
  · rfl

theorem hostWrite_script (r : HostReg) (v : Word) (s : State) : (hostWrite r v s).script = s.script := by
  cases r <;> rfl

theorem act_script {a : HostAction} {s t : State} (h : act a s = .next t) : t.script = s.script := by
  rcases act_next h with ⟨n, v, -, -, hrun⟩ | ⟨n, v, -, -, rfl⟩ | ⟨n, -, rfl⟩ | ⟨u, -, rfl⟩
  · exact runCommand_script hrun
  · exact hostWrite_script ..
  · rfl
  · rfl

/-- Settles O46: the step takes the action off, and no action adds to the script. -/
theorem stepTakesOneAction : Obligations.StepTakesOneAction := by
  intro s t h
  rcases step_next h with ⟨idle, rfl⟩ | ⟨a, rest, -, hact⟩
  · rw [idle, List.tail_nil]
  · rw [act_script hact, popAction_script]

/-- Settles O47: by the step's own equation for the empty script. -/
theorem idleStepWaits : Obligations.IdleStepWaits := fun _ idle => step_idle idle

/-! ### Reset (R39, R200) -/

/-- Settles O48: the bytes that a reset leaves are those of its input. -/
theorem resetSetsControlRegisters : Obligations.ResetSetsControlRegisters := by
  intro s u rest h
  refine ⟨_, step_cons h, fun a => ?_⟩
  have inside : a.val < u.buf.toList.length := by rw [Vector.length_toList]; exact a.isLt
  have byte := read_writeList_inside wf_nil (a := 0) (by simp) inside
  rwa [Nat.zero_add, Vector.getElem_toList] at byte

end Sys2Proof.Machine

/-! The invariant of every reachable state (10_state.md sections 2 and 3, 70_reset_and_hazards.md section 3). A write of
`CUR` or `LEN` stays within its bound, a write of `BUF` keeps the canonical form, a write of `STATUS` is one of the four
codes, and no other register is part of the invariant. -/

namespace Sys2Proof.Machine

/-! ### Every action keeps it -/

theorem statusCode_le (r : ResultCode) : (statusCode r).toNat ≤ 3 := by
  cases r <;> decide

theorem raise_inv {s : State} (h : s.Inv) (r : ResultCode) : (raise r s).Inv :=
  ⟨h.buf_wf, h.cur_le_len, h.len_le_cap, statusCode_le r⟩

/-- A cursor moved to an offset that is not beyond `LEN` (R106). -/
theorem setCursor_inv {s : State} (h : s.Inv) {n : Nat} (hn : n ≤ s.len.toNat) : (setCursor n s).Inv :=
  ⟨h.buf_wf, (Nat.mod_le n _).trans hn, h.len_le_cap, h.status_le⟩

theorem setReadValue_inv {s : State} (h : s.Inv) (v : Word) : (setReadValue v s).Inv :=
  ⟨h.buf_wf, h.cur_le_len, h.len_le_cap, h.status_le⟩

theorem setBuffer_inv {s : State} (h : s.Inv) {m : Memory} (wf : Memory.wf m) : (setBuffer m s).Inv :=
  ⟨wf, h.cur_le_len, h.len_le_cap, h.status_le⟩

theorem effect_inv {i : Instr} {s : State} (h : s.Inv) (long : lengthNeeded i s ≤ s.len.toNat) : (effect i s).Inv := by
  cases i with
  | setcur n | skip n => exact setCursor_inv h long
  | rd8 | rd16 | rd32 => exact setCursor_inv (setReadValue_inv h _) long
  | decrypt => exact setBuffer_inv h (storeBlock_wf _ h.buf_wf)
  | decPos | decOri | decCtrl | decHmd | decBase => exact ⟨h.buf_wf, h.cur_le_len, h.len_le_cap, h.status_le⟩

theorem exec_inv {i : Instr} {s t : State} (h : s.Inv) (ht : exec i s = .next t) : t.Inv := by
  rcases exec_next_cases ht with ⟨-, rfl⟩ | ⟨-, -, -, rfl⟩ | ⟨long, -, -, rfl⟩
  · exact raise_inv h _
  · exact raise_inv h _
  · exact raise_inv (effect_inv h long) .ok

theorem runCommand_inv {w : CmdWord} {s t : State} (h : s.Inv) (ht : runCommand w s = .next t) : t.Inv := by
  rcases runCommand_next ht with ⟨i, -, hi⟩ | ⟨-, rfl⟩
  · exact exec_inv h hi
  · exact raise_inv h _

theorem hostWrite_inv {s : State} (h : s.Inv) (r : HostReg) (v : Word) : (hostWrite r v s).Inv := by
  cases r with
  | len =>
    have hlen : (writeLen v s).len.toNat ≤ 64 := by rw [writeLen_len_toNat]; exact min_le_right ..
    exact ⟨h.buf_wf, Nat.zero_le _, hlen, h.status_le⟩
  | buf i => exact ⟨write_wf h.buf_wf i.isLt _, h.cur_le_len, h.len_le_cap, h.status_le⟩
  | cmd | status | cur | rval | reserved => exact h
  | pos i | acc i | gyro i | ctrl i => exact ⟨h.buf_wf, h.cur_le_len, h.len_le_cap, h.status_le⟩

/-- A reset establishes the invariant in any state. -/
theorem resetBlock_inv (u : Unspecified) (s : State) : (resetBlock u s).Inv :=
  ⟨reset_buf_wf u.buf, Nat.zero_le _, Nat.zero_le _, Nat.zero_le _⟩

theorem act_inv {a : HostAction} {s t : State} (h : s.Inv) (ht : act a s = .next t) : t.Inv := by
  rcases act_next ht with ⟨n, v, -, -, hrun⟩ | ⟨n, v, -, -, rfl⟩ | ⟨n, -, rfl⟩ | ⟨u, -, rfl⟩
  · exact runCommand_inv h hrun
  · exact hostWrite_inv h ..
  · exact ⟨h.buf_wf, h.cur_le_len, h.len_le_cap, h.status_le⟩
  · exact resetBlock_inv u s

/-- The script is no part of the invariant. -/
theorem withScript_inv {s : State} (h : s.Inv) (l : List HostAction) : ({ s with script := l } : State).Inv :=
  ⟨h.buf_wf, h.cur_le_len, h.len_le_cap, h.status_le⟩

/-- Settles O50: a step waits, or carries out an action. -/
theorem stepKeepsInvariant : Obligations.StepKeepsInvariant := by
  intro s t h ht
  rcases step_next ht with ⟨-, rfl⟩ | ⟨a, rest, -, hact⟩
  · exact h
  · exact act_inv (withScript_inv h _) hact

/-- Settles O49: the empty buffer is in canonical form, and the control registers are 0. -/
theorem resetMeetsInvariant : Obligations.ResetMeetsInvariant :=
  ⟨⟨wf_nil, Nat.zero_le _, Nat.zero_le _, Nat.zero_le _⟩, rfl, rfl, rfl, rfl⟩

/-! ### No step stops in it -/

/-- Under the invariant a bound that `LEN` meets lies in the address space. -/
theorem exec_answers_of_inv {s : State} (h : s.Inv) (i : Instr) : ∃ t, exec i s = .next t :=
  exec_answers_of_not_missing fun ⟨_, cap, long⟩ => cap.not_ge (long.trans h.len_le_cap)

theorem runCommand_answers_of_inv {s : State} (h : s.Inv) (w : CmdWord) : ∃ t, runCommand w s = .next t := by
  cases hw : decode w with
  | ok i => rw [runCommand_ok hw]; exact exec_answers_of_inv h i
  | error e => exact ⟨_, runCommand_error hw s⟩

theorem act_answers_of_inv {s : State} (h : s.Inv) (a : HostAction) : ∃ t, act a s = .next t := by
  cases a with
  | write n v =>
    rw [act_write]
    split_ifs
    · exact runCommand_answers_of_inv h _
    · exact ⟨_, rfl⟩
  | read n | reset u => exact ⟨_, rfl⟩

/-- Settles O51: a step waits, or carries out an action, which answers a next state. -/
theorem invariantStepCompletes : Obligations.InvariantStepCompletes := by
  intro s h
  cases hs : s.script with
  | nil => exact ⟨s, step_idle hs⟩
  | cons a rest =>
    rw [step_cons hs]
    exact act_answers_of_inv (withScript_inv h rest) a

/-! ### Runs -/

/-- A run from a state of the invariant goes on for ever, inside the invariant. -/
theorem run_inv (k : Nat) {s : State} (h : s.Inv) : ∃ t, run k s = .next t ∧ t.Inv := by
  induction k generalizing s with
  | zero => exact ⟨s, rfl, h⟩
  | succ k ih =>
    obtain ⟨t, ht⟩ := invariantStepCompletes s h
    rw [run_of_step ht]
    exact ih (stepKeepsInvariant s t h ht)

/-- Settles O52: a reset establishes the invariant, whatever it leaves unspecified. -/
theorem runsFromResetNeverStop : Obligations.RunsFromResetNeverStop := fun u script k =>
  run_inv k (withScript_inv (resetBlock_inv u State.reset) script)

end Sys2Proof.Machine
